-- ==== Sys2Proof/Word.lean ====
section
/-! DEFINITION. The bit vectors of the block: every value is an unsigned bit vector of a stated width
(00_scope R6, R11, R12; 10_state R39). -/

namespace Sys2Proof

/-- One bit: a carry, a comparison result (00_scope R13: true is 1, false is 0), the ports `cin` and `cout`. -/
abbrev Bit := BitVec 1

/-- A limb, or word: `W = 32` bits (00_scope R6). -/
abbrev Limb := BitVec 32

/-- A 64-bit value: a FieldElement, or a two-limb WideInt (00_scope R7, R10 `FW`). -/
abbrev DWord := BitVec 64

/-- The ports `a`, `b`, `y` (00_scope R10 `BUSW`, 10_state R39). -/
abbrev Bus := BitVec 128

/-- The port `cmd` (00_scope R10 `CMDW`, 30_encoding R70). -/
abbrev Cmd := BitVec 4

end Sys2Proof
end

