-- ==== Sys2Proof/Config.lean ====
section
/-! DEFINITION. The parameters of 00_scope R10 that are not a width of a type: the modulus, `EPS`, the
open choice of the carry strategy, and the free values. `LATENCY` is not modelled (70_reset R187, log 7). -/

namespace Sys2Proof

/-- The two carry-propagation strategies (00_scope R9; the suffixes `.F` and `.E`). -/
inductive Strategy where
  | flag
  | emul
deriving DecidableEq, Repr, Inhabited

/-- `P = 2^64 - 2^32 + 1`, the Goldilocks prime (00_scope R8). -/
def Config.P : DWord := 0xFFFFFFFF00000001#64

/-- `EPS = 2^32 - 1 = 2^64 mod P` (00_scope R8). -/
def Config.EPS : DWord := 0x00000000FFFFFFFF#64

/-- `ADD_WIDE_STRATEGY`, which strategy the names ADDW, ADC, `add` and `add_wide` stand for. The spec leaves
it OPEN (00_scope R9, D9): a constant without a body, so nothing can be proved of its value (log 6). -/
opaque Config.addWideStrategy : Strategy

/-- A result of `w` bits of which the spec states nothing, the `n`th that a run meets: a constant without a body,
so nothing can be proved of any value (logs 12, 22). -/
opaque Config.freeBits : (w : Nat) → (n : Nat) → BitVec w

end Sys2Proof
end

