-- ==== Sys2Proof/Machine/Flags.lean ====
section
/-! DEFINITION. The arithmetic primitives of 00_scope R13 and every carry and borrow computation built on them:
the one-limb steps (40_limb_adder R91 to R93) and the 64-bit helpers (43_goldilocks R133), for any width `k`. -/

namespace Sys2Proof.Machine

/-- `add_k`: `(x + z) mod 2^k` (00_scope R13). -/
def addK {k : Nat} (x z : BitVec k) : BitVec k := x + z

/-- `sub_k`: `(x - z) mod 2^k` (00_scope R13). -/
def subK {k : Nat} (x z : BitVec k) : BitVec k := x - z

/-- `ltu`: the unsigned comparison as a bit (00_scope R13). -/
def ltu {k : Nat} (x z : BitVec k) : Bit := if x.toNat < z.toNat then 1#1 else 0#1

/-- `geu(x, z) = 1 - ltu(x, z)` (00_scope R13). -/
def geu {k : Nat} (x z : BitVec k) : Bit := 1#1 - ltu x z

/-- `c * x` for a bit `c`: a selection, not a branch (00_scope R13, R16). -/
def gate {k : Nat} (c : Bit) (x : BitVec k) : BitVec k := if c = 1#1 then x else 0#k

/-- `addc(x, z) = (s, c)`: the wrapping sum and whether it wrapped (43_goldilocks R133, 40_limb_adder R91). -/
def addc {k : Nat} (x z : BitVec k) : BitVec k × Bit := (addK x z, ltu (addK x z) x)

/-- `subb(x, z) = (d, b)`: the wrapping difference and whether it wrapped (43_goldilocks R133). -/
def subb {k : Nat} (x z : BitVec k) : BitVec k × Bit := (subK x z, ltu x z)

/-- `adc_flag_k`: the exact sum `T` of `k + 1` bits, cut into limb and carry (40_limb_adder R92). -/
def adcFlag {k : Nat} (x z : BitVec k) (ci : Bit) : BitVec k × Bit :=
  let t : BitVec (k + 1) := x.setWidth (k + 1) + z.setWidth (k + 1) + ci.setWidth (k + 1)
  (t.setWidth k, t.extractLsb' k 1)

/-- The wires of one emulated step, under the names of 40_limb_adder R93. -/
structure AdcWires (k : Nat) where
  t : BitVec k
  c0 : Bit
  u : BitVec k
  c1 : Bit
deriving DecidableEq, Repr

/-- The two additions and two comparisons of 40_limb_adder R93. -/
def adcWires {k : Nat} (x z : BitVec k) (ci : Bit) : AdcWires k :=
  let t := addK x z
  let c0 := ltu t x
  let u := addK t (ci.setWidth k)
  let c1 := ltu u t
  ⟨t, c0, u, c1⟩

/-- `adc_emul_k` (40_limb_adder R93). -/
def adcEmul {k : Nat} (x z : BitVec k) (ci : Bit) : BitVec k × Bit :=
  let w := adcWires x z ci
  (w.u, w.c0 ||| w.c1)

end Sys2Proof.Machine
end

