-- ==== Sys2Proof/Syntax.lean ====
section
/-! DEFINITION. The twelve commands of 30_encoding R74, one constructor per row of spec/opcode_table.json.
A command has no operand field (R70, R72): its operands are the ports `a`, `b`, `cin`. -/

namespace Sys2Proof

/-- A command of the block (30_encoding R74). -/
inductive Instr where
  /-- ADC.F: limb add with carry, flag-assisted (40_limb_adder R92). -/
  | adcF
  /-- ADC.E: limb add with carry, emulated (40_limb_adder R93). -/
  | adcE
  /-- ADDW2.F: two-limb add, flag-assisted (41_wide_adder R102). -/
  | addw2F
  /-- ADDW2.E: two-limb add, emulated (41_wide_adder R103). -/
  | addw2E
  /-- ADDW4.F: four-limb add, flag-assisted (41_wide_adder R104). -/
  | addw4F
  /-- ADDW4.E: four-limb add, emulated (41_wide_adder R105). -/
  | addw4E
  /-- WMUL: 32 by 32 to 64 bits (42_widening_multiplier R119). -/
  | wmul
  /-- WMULD: 64 by 64 to 128 bits (42_widening_multiplier R120). -/
  | wmuld
  /-- RED: 128 bits to a 64-bit representative (43_goldilocks R134). -/
  | red
  /-- CANON: representative to canonical form (43_goldilocks R137). -/
  | canon
  /-- FADD: add two representatives modulo `P` (43_goldilocks R139). -/
  | fadd
  /-- FMUL: multiply two representatives modulo `P` (43_goldilocks R141). -/
  | fmul
deriving DecidableEq, Repr

end Sys2Proof
end

