-- ==== Sys2Proof/Machine/Operands.lean ====
section
/-! DEFINITION. How operands and results lie on the ports (20_memory R51 to R54, 30_encoding R73). -/

namespace Sys2Proof.Machine

/-- `limb(v, i) = v[32*i + 31 : 32*i]` (20_memory R51). -/
def limb (v : Bus) (i : Nat) : Limb := v.extractLsb' (32 * i) 32

/-- The first `n` limbs of a port, least significant first (20_memory R51). -/
def limbsOf (n : Nat) (v : Bus) : List Limb := (List.range n).map (limb v)

/-- The integer a WideInt stands for: `l0 + l1*2^k + ...` (20_memory R51). -/
def wideValue {k : Nat} : List (BitVec k) → Nat
  | [] => 0
  | l :: ls => l.toNat + 2 ^ k * wideValue ls

/-- A WideInt on a port: the port read as one integer is the integer it stands for (20_memory R51). -/
def packLimbs (ls : List Limb) : Bus := BitVec.ofNat 128 (wideValue ls)

/-- `v[31:0]`. -/
def low32 (v : Bus) : Limb := v.extractLsb' 0 32

/-- `v[63:0]`. -/
def low64 (v : Bus) : DWord := v.extractLsb' 0 64

/-- `v[127:64]`. -/
def high64 (v : Bus) : DWord := v.extractLsb' 64 64

/-- `zext_128`. -/
def zext128 {k : Nat} (v : BitVec k) : Bus := v.setWidth 128

/-- The mask of `v[n-1:0]`. -/
def lowMask (n : Nat) : Bus := BitVec.ofNat 128 (2 ^ n - 1)

/-- The bits of port `a` a command reads (the table of 20_memory R53). -/
def readsA : Instr → Bus
  | .adcF | .adcE | .wmul => lowMask 32
  | .addw2F | .addw2E | .wmuld | .canon | .fadd | .fmul => lowMask 64
  | .addw4F | .addw4E | .red => lowMask 128

/-- The bits of port `b` a command reads (20_memory R53). -/
def readsB : Instr → Bus
  | .adcF | .adcE | .wmul => lowMask 32
  | .addw2F | .addw2E | .wmuld | .fadd | .fmul => lowMask 64
  | .addw4F | .addw4E => lowMask 128
  | .red | .canon => lowMask 0

/-- Whether a command reads `cin` (20_memory R53): as a mask of the one bit. -/
def readsCin : Instr → Bit
  | .adcF | .adcE => 1#1
  | .addw2F | .addw2E | .addw4F | .addw4E | .wmul | .wmuld | .red | .canon | .fadd | .fmul => 0#1

/-- The bits of `y` a command drives; it drives 0 on the rest (20_memory R53, R54). -/
def drivesY : Instr → Bus
  | .adcF | .adcE => lowMask 32
  | .addw2F | .addw2E | .wmul | .red | .canon | .fadd | .fmul => lowMask 64
  | .addw4F | .addw4E | .wmuld => lowMask 128

/-- Whether `cout` carries a carry-out; it is 0 where it does not (20_memory R53): as a mask of the one bit. -/
def drivesCout : Instr → Bit
  | .adcF | .adcE | .addw2F | .addw2E | .addw4F | .addw4E => 1#1
  | .wmul | .wmuld | .red | .canon | .fadd | .fmul => 0#1

end Sys2Proof.Machine
end

