-- ==== Sys2Proof/Machine/HostSyntax.lean ====
section
/-! DEFINITION. The lines of a host program (30_encoding R77, R78; 10_state R40): transactions over host
variables, the pseudo-commands and DOC0's names, and the directives `.let` and `.expect`. -/

namespace Sys2Proof.Machine

/-- The name of a host variable. DESIGN CHOICE (log 9): a name is a number; its spelling means nothing. -/
abbrev VarName := Nat

/-- What a host variable holds: a bit vector of some width (10_state R40). -/
structure HostValue where
  width : Nat
  bits : BitVec width
deriving DecidableEq, Repr

/-- The host's "finite map from names to bit vectors" (10_state R40), as a list with strictly rising names. -/
abbrev VarMap := List (VarName × HostValue)

/-- The sources that stand alone or inside a list or a concatenation (30_encoding R77). -/
inductive Atom where
  /-- A host variable. -/
  | var (name : VarName)
  /-- A hexadecimal literal of `digits` digits. -/
  | literal (digits value : Nat)
  /-- `name[hi:lo]`, both bits included (00_scope R11). -/
  | slice (name : VarName) (hi lo : Nat)
deriving DecidableEq, Repr

/-- A source of a transaction or of a `.let` (30_encoding R77). -/
inductive Source where
  | atom (a : Atom)
  /-- `[l0, l1, ...]`, least-significant limb first. Its elements may be slices too (DESIGN CHOICE, log 16). -/
  | limbs (elems : List Atom)
  /-- `[x, y, ...]` in braces: a concatenation, high part first. DESIGN CHOICE (log 21): R77 does not say what its
  parts may be; here they are variables, literals and slices, no list and no further concatenation. -/
  | concat (parts : List Atom)
deriving DecidableEq, Repr

/-- A destination: a host variable, or `none` for the discard `_` (30_encoding R77). -/
abbrev Dest := Option VarName

/-- What a line may name: a command of R74, a pseudo-command, or a name of DOC0 (30_encoding R78). -/
inductive Mnemonic where
  | core (i : Instr)
  /-- ADC: ADC.F or ADC.E by `ADD_WIDE_STRATEGY`. -/
  | adc
  /-- ADDW: ADDW2 or ADDW4 by the operands' width, `.F` or `.E` by `ADD_WIDE_STRATEGY`. -/
  | addw
  /-- DOC0 `add`, the same operation as ADDW (90_conflicts C10). -/
  | add
  /-- DOC0 `add_wide`, the same operation as ADDW (90_conflicts C10). -/
  | addWide
  /-- DOC0 `widen_mul`: WMUL for words, WMULD for 64-bit operands. -/
  | widenMul
  /-- DOC0 `reduce(lo, hi)`: RED. -/
  | reduce
  /-- DOC0 `reduce(product)`: RED of one 128-bit product. -/
  | reduceProduct
  /-- DOC0 `canonicalize`: CANON. -/
  | canonicalize
  /-- DOC0 `field_add`: FADD. -/
  | fieldAdd
  /-- DOC0 `field_mul`: FMUL. -/
  | fieldMul
deriving DecidableEq, Repr

/-- One line of a host program. -/
inductive Line where
  /-- The host drives the four input ports itself (00_scope R15) and keeps no output. -/
  | present (cmd : Cmd) (a b : Bus) (cin : Bit)
  /-- `MNEMONIC dsts, srcs` (30_encoding R77). -/
  | txn (m : Mnemonic) (dests : List Dest) (sources : List Source)
  /-- `.let name = source`. -/
  | letVar (name : VarName) (src : Source)
  /-- `.let name = literal - source`, the host's own integer subtraction. -/
  | letDiff (name : VarName) (digits value : Nat) (src : Source)
  /-- `.expect name == literal`. -/
  | expect (name : VarName) (digits value : Nat)
deriving DecidableEq, Repr

end Sys2Proof.Machine
end

