-- ==== Sys2Proof/Machine/State.lean ====
section
/-! DEFINITION. The machine's state: the ports of one transaction, which is all the spec gives the block
(10_state R30 to R39), and what its host keeps (10_state R40). -/

namespace Sys2Proof.Machine

/-- The faults of the block: NONE, for any command and any operands (60_exceptions R160: "its type has no
fault constructor"; 00_scope R19). -/
inductive Fault where
deriving DecidableEq, Repr

/-- Why the model gives a step no meaning. No constructor reports an error of the block: it has none. -/
inductive Refusal where
  /-- Raised by `exec` for a command without a meaning here; no arm uses it. Safe. -/
  | notModelled (mnemonic : String)
  /-- Raised by `step`: a reserved command code stands on `cmd` (30_encoding R75, 60_exceptions R163). Safe. -/
  | reservedCommand (code : Cmd)
  /-- Raised by `step`: the host's program is empty, so no transaction is presented (93 U5: "the model has no
  such moment"). Safe. -/
  | nothingPresented
  /-- Raised by `step`: the host's line has not the form of 30_encoding R77. Safe: a host error, not the block's. -/
  | illFormedLine
  /-- Raised by `step`: the host reads a name never assigned (10_state R40: "an error of the program"). Safe. -/
  | unassignedVariable (name : VarName)
  /-- Raised by `step`: an operand's width is not the one 30_encoding R77 gives (log 10). Safe. -/
  | widthMismatch (wanted found : Nat)
  /-- Raised by `step`: a literal does not fit the width of its place (00_scope R11; log 10). Safe. -/
  | literalTooWide (wanted : Nat)
  /-- Raised by `step`: a slice reaches above its variable's top bit (log 10). Safe. -/
  | sliceOutOfRange (name : VarName) (hi : Nat)
  /-- Raised by `step`: the operands of ADDW or `widen_mul` have none of the widths of 30_encoding R78 (log 14). Safe. -/
  | noSuchSize
  /-- Raised by `step`: what `.expect` states does not hold (log 13). Safe. -/
  | expectationFailed (name : VarName)
deriving DecidableEq, Repr

/-- The state. The first six fields are the ports of the last transaction presented (10_state R39); no command
reads `y` or `cout`, so nothing of one transaction reaches a later one inside the block (10_state R30, R31).
The next two are the host's (10_state R40, log 1); the last is the model's own. -/
structure State where
  /-- The command, input (30_encoding R70). -/
  cmd : Cmd
  /-- First operand, input. -/
  a : Bus
  /-- Second operand, input. -/
  b : Bus
  /-- Carry-in, input; read by ADC.F and ADC.E only. -/
  cin : Bit
  /-- Result, output. -/
  y : Bus
  /-- Carry-out of the last limb, output. -/
  cout : Bit
  /-- The host's variables. -/
  vars : VarMap
  /-- The lines the host has not issued yet. -/
  program : List Line
  /-- How many free values the run has met. The MODEL's own field, not the spec's (log 22). -/
  frees : Nat
deriving DecidableEq, Repr

/-- Before anything has been presented: nothing to reset (10_state R38, 70_reset R180), no variable assigned,
no program loaded (log 3). DESIGN CHOICE (log 2): the ports hold 0, of which the spec says only that they mean
nothing yet; with them the outputs are what ADC.F answers to the inputs. DESIGN CHOICE (log 22): no free value met yet. -/
def State.reset : State :=
  { cmd := 0, a := 0, b := 0, cin := 0, y := 0, cout := 0, vars := [], program := [], frees := 0 }

/-- What a step answers. -/
abbrev Result := Host.Outcome State Fault Refusal

end Sys2Proof.Machine
end

