-- ==== Sys2Proof/Machine/Ops.lean ====
section
/-! DEFINITION. The operations on the ports and on the host's variables. The block has no memory and no
register (10_state R31, R36), and it takes no exception and returns from none (60_exceptions R166), so there is
no operation for those. -/

namespace Sys2Proof.Machine

/-- `out.y <- y; out.cout <- cout` (00_scope R14): the one way a command changes the state. -/
def State.answer (s : State) (y : Bus) (cout : Bit) : Result := .next { s with y := y, cout := cout }

/-- The host drives the four input ports (00_scope R15). -/
def State.drive (s : State) (cmd : Cmd) (a b : Bus) (cin : Bit) : State :=
  { s with cmd := cmd, a := a, b := b, cin := cin }

/-- The value of a host variable; a name never assigned has none (10_state R40). -/
def lookupVar : VarMap → VarName → Option HostValue
  | [], _ => none
  | (m, v) :: rest, n => if m = n then some v else lookupVar rest n

/-- Assign a host variable, keeping the names strictly rising. -/
def assignVar : VarMap → VarName → HostValue → VarMap
  | [], n, v => [(n, v)]
  | (m, w) :: rest, n, v =>
      if n < m then (n, v) :: (m, w) :: rest
      else if n = m then (n, v) :: rest
      else (m, w) :: assignVar rest n v

/-- Assign a host variable a value of `w` bits of which the spec states nothing: the next free value of the run
(logs 12, 22). -/
def State.assignFree (s : State) (n : VarName) (w : Nat) : State :=
  { s with vars := assignVar s.vars n ⟨w, Config.freeBits w s.frees⟩, frees := s.frees + 1 }

/-- The canonical form of the host's map: names strictly rising, so equal maps are equal lists. -/
def varsWf : VarMap → Bool
  | [] => true
  | [_] => true
  | (m, _) :: (n, w) :: rest => decide (m < n) && varsWf ((n, w) :: rest)

end Sys2Proof.Machine
end

