-- ==== Sys2Proof/Machine/Multiplier.lean ====
section
/-! DEFINITION. The widening multiplier by half-width decomposition, its lift from words to 64-bit operands,
and WMUL and WMULD (42_widening_multiplier). -/

namespace Sys2Proof.Machine

/-- The four half-products of one multiplication, named as in 42_widening_multiplier R117. -/
structure HalfProducts (k : Nat) where
  ll : BitVec k
  lh : BitVec k
  hl : BitVec k
  hh : BitVec k
deriving DecidableEq, Repr

/-- The wires of the accumulation, named as in 42_widening_multiplier R117. -/
structure MulWires (k : Nat) where
  cross : BitVec k
  c1 : Bit
  sh : BitVec k
  lo : BitVec k
  c2 : Bit
  hi : BitVec k
deriving DecidableEq, Repr

/-- Split both operands into halves of `h = k/2` bits and form the four products, each of which fits `k` bits
(42_widening_multiplier R117). -/
def halfProducts {k : Nat} (x z : BitVec k) : HalfProducts k :=
  let h := k / 2
  let mask := BitVec.ofNat k (2 ^ h - 1)
  let xLo := x &&& mask
  let xHi := x >>> h
  let zLo := z &&& mask
  let zHi := z >>> h
  ⟨xLo * zLo, xLo * zHi, xHi * zLo, xHi * zHi⟩

/-- The carry-aware accumulation of 42_widening_multiplier R117. -/
def accumulate {k : Nat} (p : HalfProducts k) : MulWires k :=
  let h := k / 2
  let cross := addK p.lh p.hl
  let c1 := ltu cross p.lh
  let sh := cross <<< h
  let lo := addK p.ll sh
  let c2 := ltu lo p.ll
  let hi := addK (addK (addK p.hh (cross >>> h)) (c1.setWidth k <<< h)) (c2.setWidth k)
  ⟨cross, c1, sh, lo, c2, hi⟩

/-- `widen_mul_k(x, z) = (lo, hi)` (42_widening_multiplier R117). -/
def widenMul {k : Nat} (x z : BitVec k) : BitVec k × BitVec k :=
  let w := accumulate (halfProducts x z)
  (w.lo, w.hi)

/-- A pair `(lo, hi)` as one value, `lo` in the low bits (20_memory R53). -/
def joinPair {k : Nat} (p : BitVec k × BitVec k) : BitVec (k + k) := p.2 ++ p.1

/-- The lift as it is built: each half-product of a 64-bit multiplication is one 32-bit widening product,
`ll = [hi, lo]` of `widen_mul_32(x_lo, z_lo)` and so on (42_widening_multiplier R120). -/
def widenMulLift (x z : DWord) : DWord × DWord :=
  let xLo : Limb := x.extractLsb' 0 32
  let xHi : Limb := x.extractLsb' 32 32
  let zLo : Limb := z.extractLsb' 0 32
  let zHi : Limb := z.extractLsb' 32 32
  let w := accumulate (k := 64)
    ⟨joinPair (widenMul xLo zLo), joinPair (widenMul xLo zHi),
     joinPair (widenMul xHi zLo), joinPair (widenMul xHi zHi)⟩
  (w.lo, w.hi)

/-- WMUL (42_widening_multiplier R119). -/
def execWmul (s : State) : Result :=
  s.answer (zext128 (joinPair (widenMul (low32 s.a) (low32 s.b)))) 0#1

/-- WMULD (42_widening_multiplier R120). -/
def execWmuld (s : State) : Result :=
  s.answer (joinPair (widenMul (low64 s.a) (low64 s.b))) 0#1

end Sys2Proof.Machine
end

