-- ==== Sys2Proof/Machine/Goldilocks.lean ====
section
/-! DEFINITION. The Goldilocks reducer and the field commands RED, CANON, FADD, FMUL (43_goldilocks). -/

namespace Sys2Proof.Machine

/-- The wires of RED, named as in 43_goldilocks R134 (`t0c` is the rule's `t0'`). -/
structure RedWires where
  t0 : DWord
  b : Bit
  t0c : DWord
  t1 : DWord
  t2 : DWord
  c : Bit
  r : DWord
deriving DecidableEq, Repr

/-- The steps of 43_goldilocks R134: subtract `hi_hi`, repair, add `hi_lo * EPS`, repair. -/
def redWires (lo hi : DWord) : RedWires :=
  let hiLo : DWord := (hi.extractLsb' 0 32).setWidth 64
  let hiHi : DWord := (hi.extractLsb' 32 32).setWidth 64
  let d := subb lo hiHi
  let t0c := subK d.1 (gate d.2 Config.EPS)
  let t1 := subK (hiLo <<< 32) hiLo
  let a := addc t0c t1
  let r := addK a.1 (gate a.2 Config.EPS)
  ⟨d.1, d.2, t0c, t1, a.1, a.2, r⟩

/-- `reduce(lo, hi)`: a representative of `lo + hi * 2^64` (43_goldilocks R134). -/
def reduce (lo hi : DWord) : DWord := (redWires lo hi).r

/-- `canonicalize(x)` (43_goldilocks R137). -/
def canonicalize (x : DWord) : DWord := subK x (gate (geu x Config.P) Config.P)

/-- The wires of FADD, named as in 43_goldilocks R139. -/
structure FaddWires where
  s : DWord
  c0 : Bit
  s1 : DWord
  c1 : Bit
  r : DWord
deriving DecidableEq, Repr

/-- The steps of 43_goldilocks R139: add, and repair twice. -/
def faddWires (x z : DWord) : FaddWires :=
  let p := addc x z
  let q := addc p.1 (gate p.2 Config.EPS)
  let r := addK q.1 (gate q.2 Config.EPS)
  ⟨p.1, p.2, q.1, q.2, r⟩

/-- `field_add(x, z)` (43_goldilocks R139). -/
def fieldAdd (x z : DWord) : DWord := (faddWires x z).r

/-- `field_mul(x, z)`: the widening product, then the reducer (43_goldilocks R141). -/
def fieldMul (x z : DWord) : DWord :=
  let p := widenMul x z
  reduce p.1 p.2

/-- RED (43_goldilocks R134). -/
def execRed (s : State) : Result := s.answer (zext128 (reduce (low64 s.a) (high64 s.a))) 0#1

/-- CANON (43_goldilocks R137). -/
def execCanon (s : State) : Result := s.answer (zext128 (canonicalize (low64 s.a))) 0#1

/-- FADD (43_goldilocks R139). -/
def execFadd (s : State) : Result := s.answer (zext128 (fieldAdd (low64 s.a) (low64 s.b))) 0#1

/-- FMUL (43_goldilocks R141). -/
def execFmul (s : State) : Result := s.answer (zext128 (fieldMul (low64 s.a) (low64 s.b))) 0#1

end Sys2Proof.Machine
end

