-- ==== Sys2Proof/Machine/LimbAdder.lean ====
section
/-! DEFINITION. ADC.F and ADC.E: one limb with carry-in and carry-out (40_limb_adder). -/

namespace Sys2Proof.Machine

/-- ADC.F (40_limb_adder R92). -/
def execAdcF (s : State) : Result :=
  let r := adcFlag (low32 s.a) (low32 s.b) s.cin
  s.answer (zext128 r.1) r.2

/-- ADC.E (40_limb_adder R93). -/
def execAdcE (s : State) : Result :=
  let r := adcEmul (low32 s.a) (low32 s.b) s.cin
  s.answer (zext128 r.1) r.2

end Sys2Proof.Machine
end

