-- ==== Sys2Proof/Machine/WideAdder.lean ====
section
/-! DEFINITION. The carry chains, for any limb width and length, and ADDW2.F, ADDW2.E, ADDW4.F, ADDW4.E
(41_wide_adder). -/

namespace Sys2Proof.Machine

/-- A chain of limb steps over the pairs of limbs, least significant first: each carry-out is the next carry-in
(the loop of 41_wide_adder R100, R101). -/
def carryChain {k : Nat} (limbStep : BitVec k → BitVec k → Bit → BitVec k × Bit) :
    List (BitVec k × BitVec k) → Bit → List (BitVec k) × Bit
  | [], c => ([], c)
  | (x, z) :: rest, c =>
      let r := limbStep x z c
      let rs := carryChain limbStep rest r.2
      (r.1 :: rs.1, rs.2)

/-- `add_wide_flag_{k,n}`: the carry into limb 0 is 0 (41_wide_adder R100, R109). -/
def addWideFlag {k : Nat} (xs zs : List (BitVec k)) : List (BitVec k) × Bit :=
  carryChain adcFlag (xs.zip zs) 0#1

/-- `add_wide_emul_{k,n}` (41_wide_adder R101, R109). -/
def addWideEmul {k : Nat} (xs zs : List (BitVec k)) : List (BitVec k) × Bit :=
  carryChain adcEmul (xs.zip zs) 0#1

/-- ADDW2.F (41_wide_adder R102). -/
def execAddw2F (s : State) : Result :=
  let r := addWideFlag (limbsOf 2 s.a) (limbsOf 2 s.b)
  s.answer (packLimbs r.1) r.2

/-- ADDW2.E (41_wide_adder R103). -/
def execAddw2E (s : State) : Result :=
  let r := addWideEmul (limbsOf 2 s.a) (limbsOf 2 s.b)
  s.answer (packLimbs r.1) r.2

/-- ADDW4.F (41_wide_adder R104). -/
def execAddw4F (s : State) : Result :=
  let r := addWideFlag (limbsOf 4 s.a) (limbsOf 4 s.b)
  s.answer (packLimbs r.1) r.2

/-- ADDW4.E (41_wide_adder R105). -/
def execAddw4E (s : State) : Result :=
  let r := addWideEmul (limbsOf 4 s.a) (limbsOf 4 s.b)
  s.answer (packLimbs r.1) r.2

end Sys2Proof.Machine
end

