-- ==== Sys2Proof/Machine/Dispatch.lean ====
section
/-! DEFINITION. One arm per command of 30_encoding R74. -/

namespace Sys2Proof.Machine

def exec (i : Instr) (s : State) : Host.Outcome State Fault Refusal :=
  match i with
  | .adcF => Sys2Proof.Machine.execAdcF s
  | .adcE => Sys2Proof.Machine.execAdcE s
  | .addw2F => Sys2Proof.Machine.execAddw2F s
  | .addw2E => Sys2Proof.Machine.execAddw2E s
  | .addw4F => Sys2Proof.Machine.execAddw4F s
  | .addw4E => Sys2Proof.Machine.execAddw4E s
  | .wmul => Sys2Proof.Machine.execWmul s
  | .wmuld => Sys2Proof.Machine.execWmuld s
  | .red => Sys2Proof.Machine.execRed s
  | .canon => Sys2Proof.Machine.execCanon s
  | .fadd => Sys2Proof.Machine.execFadd s
  | .fmul => Sys2Proof.Machine.execFmul s

end Sys2Proof.Machine
end

