-- ==== Sys2Proof/WellFormed.lean ====
section
/-! DEFINITION. What a well-formed command and a well-formed host line are (30_encoding R70, R77). These are
the checks that need no variable's value; widths are checked when a line is issued (Machine/HostSide.lean). -/

namespace Sys2Proof

/-- Every command is well formed: it has one field, `op`, and no operand that could be out of range (30_encoding R70). -/
def Instr.wf (_ : Instr) : Bool := true

namespace Machine

/-- A literal has at least one digit, and no more digits than its value needs room for. -/
def literalWf (digits value : Nat) : Bool := decide (0 < digits) && decide (value < 16 ^ digits)

/-- A slice runs from `hi` down to `lo` (00_scope R11). -/
def Atom.wf : Atom → Bool
  | .var _ => true
  | .literal digits value => literalWf digits value
  | .slice _ hi lo => decide (lo ≤ hi)

/-- A limb list holds at least one limb, a concatenation at least two parts (DESIGN CHOICE, log 21: R77 writes two,
and its programs up to eight). -/
def Source.wf : Source → Bool
  | .atom a => a.wf
  | .limbs elems => decide (1 ≤ elems.length) && elems.all Atom.wf
  | .concat parts => decide (2 ≤ parts.length) && parts.all Atom.wf

/-- How many destinations and sources each command's line has (the table of 30_encoding R77). -/
def lineArity : Instr → Nat × Nat
  | .adcF | .adcE => (2, 3)
  | .addw2F | .addw2E | .addw4F | .addw4E => (2, 2)
  | .wmul | .wmuld => (2, 2)
  | .red => (1, 2)
  | .canon => (1, 1)
  | .fadd | .fmul => (1, 2)

/-- The arity of a name of 30_encoding R78 is that of the command it stands for, but for `reduce(product)`, whose
one source is the pair. -/
def Mnemonic.arity : Mnemonic → Nat × Nat
  | .core i => lineArity i
  | .adc => lineArity .adcF
  | .addw | .add | .addWide => lineArity .addw4F
  | .widenMul => lineArity .wmul
  | .reduce => lineArity .red
  | .reduceProduct => (1, 1)
  | .canonicalize => lineArity .canon
  | .fieldAdd => lineArity .fadd
  | .fieldMul => lineArity .fmul

/-- No host variable is named twice among the destinations. DESIGN CHOICE (log 15): the spec gives no meaning
to two outputs copied into one name. -/
def destsWf (dests : List Dest) : Bool := decide (dests.filterMap id).Nodup

/-- A line of the form 30_encoding R77 gives. -/
def Line.wf : Line → Bool
  | .present _ _ _ _ => true
  | .txn m dests sources =>
      decide ((dests.length, sources.length) = m.arity) && destsWf dests && sources.all Source.wf
  | .letVar _ src => src.wf
  | .letDiff _ digits value src => literalWf digits value && src.wf
  | .expect _ digits value => literalWf digits value

end Machine

end Sys2Proof
end

