-- ==== Sys2Proof/Decode.lean ====
section
/-! DEFINITION. The 4-bit command code: decoder and encoder (30_encoding R70 to R76). -/

namespace Sys2Proof

/-- Why a code is no command: it is one of the reserved codes (30_encoding R75). -/
inductive DecodeError where
  | reservedCode (code : Cmd)
deriving DecidableEq, Repr

/-- A row of the command table: `c` selects it when `(c & mask) == pattern` (30_encoding R74, "match and mask"). -/
structure OpcodeRow where
  mask : Cmd
  pattern : Cmd
  instr : Instr
deriving DecidableEq, Repr

/-- The command table of 30_encoding R74. -/
def opcodeRows : List OpcodeRow :=
  [⟨0xF#4, 0x0#4, .adcF⟩, ⟨0xF#4, 0x1#4, .adcE⟩,
   ⟨0xF#4, 0x2#4, .addw2F⟩, ⟨0xF#4, 0x3#4, .addw2E⟩,
   ⟨0xF#4, 0x4#4, .addw4F⟩, ⟨0xF#4, 0x5#4, .addw4E⟩,
   ⟨0xF#4, 0x6#4, .wmul⟩, ⟨0xF#4, 0x7#4, .wmuld⟩,
   ⟨0xF#4, 0x8#4, .red⟩, ⟨0xF#4, 0x9#4, .canon⟩,
   ⟨0xF#4, 0xA#4, .fadd⟩, ⟨0xF#4, 0xB#4, .fmul⟩]

/-- Does code `c` select this row? (30_encoding R74) -/
def OpcodeRow.selects (r : OpcodeRow) (c : Cmd) : Bool := c &&& r.mask == r.pattern

/-- The decoder: total, refusing the four reserved codes by name (30_encoding R74, R75). -/
def decode (c : Cmd) : Except DecodeError Instr :=
  match opcodeRows.find? (fun r => r.selects c) with
  | some r => .ok r.instr
  | none => .error (.reservedCode c)

/-- The encoder: the code of each command (30_encoding R74). -/
def encode : Instr → Cmd
  | .adcF => 0x0#4
  | .adcE => 0x1#4
  | .addw2F => 0x2#4
  | .addw2E => 0x3#4
  | .addw4F => 0x4#4
  | .addw4E => 0x5#4
  | .wmul => 0x6#4
  | .wmuld => 0x7#4
  | .red => 0x8#4
  | .canon => 0x9#4
  | .fadd => 0xA#4
  | .fmul => 0xB#4

/-- The command code that a table word stands for: its bits 3..0, as the port `cmd` has those and no others
(30_encoding R70, R71; 10_state R39). Bits at `nbits` and above are 0. DESIGN CHOICE (log 5): bits 7..4, which
rounding the 4-bit row up to a byte adds, are connected to nothing. -/
def cmdOfWord (nbits w : Nat) : Cmd := BitVec.ofNat 4 (w % 2 ^ nbits)

/-- The instruction the decoder reads from a word of spec/opcode_table.json's numbering. -/
def decodeTableWord (nbits w : Nat) : Option Instr := (decode (cmdOfWord nbits w)).toOption

end Sys2Proof
end

