-- ==== Sys2Proof/Machine/HostSide.lean ====
section
/-! DEFINITION. The host's side of a transaction: what a line's sources are worth, which ports it drives, which
outputs it keeps, and what the directives do (10_state R40; 30_encoding R77, R78). -/

namespace Sys2Proof.Machine

/-- The value of a variable, or the program's error of reading one never assigned (10_state R40). -/
def readVar (m : VarMap) (n : VarName) : Except Refusal HostValue :=
  match lookupVar m n with
  | some v => .ok v
  | none => .error (.unassignedVariable n)

/-- The value of an atom standing where no width is prescribed; a literal then has 4 bits per digit written
(30_encoding R77 says so inside a concatenation; DESIGN CHOICE elsewhere, log 20). -/
def Atom.value (m : VarMap) : Atom → Except Refusal HostValue
  | .var n => readVar m n
  | .literal digits value => .ok ⟨4 * digits, BitVec.ofNat _ value⟩
  | .slice n hi lo =>
      match readVar m n with
      | .error e => .error e
      | .ok v =>
          if hi < v.width then .ok ⟨hi + 1 - lo, v.bits.extractLsb' lo (hi + 1 - lo)⟩
          else .error (.sliceOutOfRange n hi)

/-- A literal in a place of width `w`, whose width it takes (00_scope R11). -/
def literalAt (w value : Nat) : Except Refusal Nat :=
  if value < 2 ^ w then .ok value else .error (.literalTooWide w)

/-- An element of a limb list: at most 32 bits, zero-extended to one limb (30_encoding R77). -/
def Atom.limbValue (m : VarMap) (a : Atom) : Except Refusal Limb :=
  match a with
  | .literal _ value => (literalAt 32 value).map (BitVec.ofNat 32)
  | .var _ | .slice _ _ _ =>
      match a.value m with
      | .error e => .error e
      | .ok v => if v.width ≤ 32 then .ok (v.bits.setWidth 32) else .error (.widthMismatch 32 v.width)

/-- Evaluate a list from left to right, stopping at the first error. -/
def evalAll {α β : Type} (f : α → Except Refusal β) : List α → Except Refusal (List β)
  | [] => .ok []
  | x :: xs =>
      match f x with
      | .error e => .error e
      | .ok v =>
          match evalAll f xs with
          | .error e => .error e
          | .ok vs => .ok (v :: vs)

/-- Concatenation, high part first (00_scope R11). -/
def concatValues : List HostValue → HostValue
  | [] => ⟨0, 0⟩
  | v :: vs => ⟨v.width + (concatValues vs).width, v.bits ++ (concatValues vs).bits⟩

/-- The value of a source standing where no width is prescribed. -/
def Source.value (m : VarMap) : Source → Except Refusal HostValue
  | .atom a => a.value m
  | .limbs elems =>
      (evalAll (Atom.limbValue m) elems).map
        (fun ls => ⟨32 * ls.length, BitVec.ofNat _ (wideValue ls)⟩)
  | .concat parts => (evalAll (Atom.value m) parts).map concatValues

/-- The value of a source in an operand place of width `w`: a literal takes that width, anything else must have
it (30_encoding R77; log 10). -/
def Source.operand (m : VarMap) (w : Nat) (src : Source) : Except Refusal Nat :=
  match src with
  | .atom (.literal _ value) => literalAt w value
  | .atom (.var _) | .atom (.slice _ _ _) | .limbs _ | .concat _ =>
      match src.value m with
      | .error e => .error e
      | .ok v => if v.width = w then .ok v.bits.toNat else .error (.widthMismatch w v.width)

/-- Operands from left to right, each at its place's width. -/
def operandValues (m : VarMap) : List Nat → List Source → Except Refusal (List Nat)
  | w :: ws, src :: srcs =>
      match src.operand m w with
      | .error e => .error e
      | .ok v =>
          match operandValues m ws srcs with
          | .error e => .error e
          | .ok vs => .ok (v :: vs)
  | _, _ => .ok []

/-- The widths of a command's sources (the table of 30_encoding R77). -/
def sourceWidths : Instr → List Nat
  | .adcF | .adcE => [32, 32, 1]
  | .addw2F | .addw2E => [64, 64]
  | .addw4F | .addw4E => [128, 128]
  | .wmul => [32, 32]
  | .wmuld => [64, 64]
  | .red => [64, 64]
  | .canon => [64]
  | .fadd | .fmul => [64, 64]

/-- The widths of a line's sources: those of the command its name stands for, but `reduce(product)` takes the
product as one 128-bit source (30_encoding R78, 43_goldilocks section 2). -/
def Mnemonic.sourceWidths (i : Instr) : Mnemonic → List Nat
  | .reduceProduct => [128]
  | .core _ | .adc | .addw | .add | .addWide | .widenMul | .reduce | .canonicalize | .fieldAdd | .fieldMul =>
      Sys2Proof.Machine.sourceWidths i

/-- A part of the answer that a line copies (30_encoding R77). -/
inductive OutField where
  /-- `y[lo + width - 1 : lo]`. -/
  | y (lo width : Nat)
  | cout
deriving DecidableEq, Repr

/-- The parts of the answer a command's line copies, in the order of its destinations (30_encoding R77). -/
def outFields : Instr → List OutField
  | .adcF | .adcE => [.y 0 32, .cout]
  | .addw2F | .addw2E => [.y 0 64, .cout]
  | .addw4F | .addw4E => [.y 0 128, .cout]
  | .wmul => [.y 0 32, .y 32 32]
  | .wmuld => [.y 0 64, .y 64 64]
  | .red | .canon | .fadd | .fmul => [.y 0 64]

/-- What stands on the output ports, read as one part. -/
def OutField.read (s : State) : OutField → HostValue
  | .y lo width => ⟨width, s.y.extractLsb' lo width⟩
  | .cout => ⟨1, s.cout⟩

/-- One transaction as the host issues it: the four inputs, and where the outputs go. -/
structure Issue where
  cmd : Cmd
  a : Bus
  b : Bus
  cin : Bit
  copies : List (Dest × OutField)
deriving DecidableEq, Repr

/-- The `i`th operand, 0 past the end (30_encoding R77: 0 is driven on every ignored input). -/
def operandAt (ops : List Nat) (i : Nat) : Nat := ops.getD i 0

/-- The ports a line drives: RED's `a` is `[hi, lo]` (or the whole product), every other command's first two operands go to `a` and
`b`, ADC's third to `cin`, and 0 to what the command ignores (30_encoding R77, 20_memory R53). -/
def issueOf (i : Instr) (ops : List Nat) (dests : List Dest) : Issue :=
  let x := operandAt ops 0
  let z := operandAt ops 1
  let copies := dests.zip (outFields i)
  match i with
  | .adcF | .adcE =>
      ⟨encode i, BitVec.ofNat 128 x, BitVec.ofNat 128 z, BitVec.ofNat 1 (operandAt ops 2), copies⟩
  | .red => ⟨encode i, BitVec.ofNat 128 (x + z * 2 ^ 64), 0, 0, copies⟩
  | .canon => ⟨encode i, BitVec.ofNat 128 x, 0, 0, copies⟩
  | .addw2F | .addw2E | .addw4F | .addw4E | .wmul | .wmuld | .fadd | .fmul =>
      ⟨encode i, BitVec.ofNat 128 x, BitVec.ofNat 128 z, 0, copies⟩

/-- ADC by strategy (30_encoding R78). -/
def adcBy : Strategy → Instr
  | .flag => .adcF
  | .emul => .adcE

/-- ADDW of two limbs by strategy (30_encoding R78). -/
def addw2By : Strategy → Instr
  | .flag => .addw2F
  | .emul => .addw2E

/-- ADDW of four limbs by strategy (30_encoding R78). -/
def addw4By : Strategy → Instr
  | .flag => .addw4F
  | .emul => .addw4E

/-- Is the source a bare literal, which has no width of its own but takes that of its place (00_scope R11)? -/
def Source.isLiteral : Source → Bool
  | .atom (.literal _ _) => true
  | .atom (.var _) | .atom (.slice _ _ _) | .limbs _ | .concat _ => false

/-- The sources whose widths pick a line's size: those that are not bare literals, as a literal takes the width of
its place (00_scope R11). DESIGN CHOICE (log 14): where all are literals there is no place to take a width from
yet, and each counts 4 bits per digit. -/
def sizingSources (srcs : List Source) : List Source :=
  if srcs.all Source.isLiteral then srcs else srcs.filter (fun src => !src.isLiteral)

/-- The command among two sizes that some width selects (30_encoding R78). DESIGN CHOICE (log 14): the wider
first, where the widths disagree. -/
def bySize (widths : List Nat) (wide narrow : Nat × Instr) : Except Refusal Instr :=
  if wide.1 ∈ widths then .ok wide.2
  else if narrow.1 ∈ widths then .ok narrow.2
  else .error .noSuchSize

/-- The command a line's name stands for, given `ADD_WIDE_STRATEGY` (30_encoding R78; the size of ADDW, `add`,
`add_wide` and `widen_mul` by the widths of the sources, log 14). -/
def Mnemonic.resolve (strategy : Strategy) (m : VarMap) (srcs : List Source) : Mnemonic → Except Refusal Instr
  | .core i => .ok i
  | .adc => .ok (adcBy strategy)
  | .addw | .add | .addWide =>
      match evalAll (Source.value m) (sizingSources srcs) with
      | .error e => .error e
      | .ok vs => bySize (vs.map HostValue.width) (128, addw4By strategy) (64, addw2By strategy)
  | .widenMul =>
      match evalAll (Source.value m) (sizingSources srcs) with
      | .error e => .error e
      | .ok vs => bySize (vs.map HostValue.width) (64, .wmuld) (32, .wmul)
  | .reduce | .reduceProduct => .ok .red
  | .canonicalize => .ok .canon
  | .fieldAdd => .ok .fadd
  | .fieldMul => .ok .fmul

/-- What a line makes the host do: change its own variables, or issue a transaction. -/
inductive HostAct where
  | direct (vars : VarMap)
  /-- Assign a value of `width` bits of which the spec states nothing. -/
  | assignFree (name : VarName) (width : Nat)
  | issue (t : Issue)
deriving DecidableEq, Repr

/-- A transaction line, given `ADD_WIDE_STRATEGY` (30_encoding R77, R78). -/
def issueLine (strategy : Strategy) (m : VarMap) (mn : Mnemonic) (dests : List Dest) (srcs : List Source) :
    Except Refusal Issue :=
  match mn.resolve strategy m srcs with
  | .error e => .error e
  | .ok i =>
      match operandValues m (mn.sourceWidths i) srcs with
      | .error e => .error e
      | .ok ops => .ok (issueOf i ops dests)

/-- `.let name = literal - source`: the host's own integer subtraction, at the literal's width
(30_encoding R77; log 12). `none` where the difference is negative: the spec states no result there. -/
def differenceOf (m : VarMap) (digits value : Nat) (src : Source) : Except Refusal (Option HostValue) :=
  (src.value m).map (fun v =>
    if v.bits.toNat ≤ value then some ⟨4 * digits, BitVec.ofNat _ (value - v.bits.toNat)⟩ else none)

/-- What the assignment of a difference makes the host do. -/
def assignDifference (m : VarMap) (name : VarName) (digits : Nat) : Option HostValue → HostAct
  | some v => .direct (assignVar m name v)
  | none => .assignFree name (4 * digits)

/-- What a line makes the host do, given `ADD_WIDE_STRATEGY`. -/
def Line.act (strategy : Strategy) (m : VarMap) (line : Line) : Except Refusal HostAct :=
  if line.wf then
    match line with
    | .present cmd a b cin => .ok (.issue ⟨cmd, a, b, cin, []⟩)
    | .txn mn dests srcs => (issueLine strategy m mn dests srcs).map .issue
    | .letVar name src => (src.value m).map (fun v => .direct (assignVar m name v))
    | .letDiff name digits value src =>
        (differenceOf m digits value src).map (assignDifference m name digits)
    | .expect name _ value =>
        match readVar m name with
        | .error e => .error e
        | .ok v => if v.bits.toNat = value then .ok (.direct m) else .error (.expectationFailed name)
  else .error .illFormedLine

/-- The host copies the answer into its variables, destination by destination; `_` discards (30_encoding R77,
10_state R40). -/
def State.copyOut (s : State) (copies : List (Dest × OutField)) : State :=
  { s with vars := copies.foldl (fun m c => match c.1 with
      | some n => assignVar m n (c.2.read s)
      | none => m) s.vars }

/-- The four inputs of a transaction on the ports (00_scope R15). -/
def State.present (s : State) (t : Issue) : State := s.drive t.cmd t.a t.b t.cin

end Sys2Proof.Machine
end

