-- ==== Sys2Proof/Machine/Transaction.lean ====
section
/-! DEFINITION. One transaction: present, decode, execute, read the answer (00_scope R15, 10_state R39). -/

namespace Sys2Proof.Machine

/-- What the host does with the outcome of a transaction: it copies the answer in the same step, while its
inputs still stand (70_reset R189; log 18). -/
def finish (copies : List (Dest × OutField)) : Result → Result
  | .next s => .next (s.copyOut copies)
  | .fault f => .fault f
  | .refused r => .refused r

/-- One transaction. A reserved code is refused (30_encoding R75). -/
def transact (t : Issue) (s : State) : Result :=
  match decode t.cmd with
  | .error (.reservedCode c) => .refused (.reservedCommand c)
  | .ok i => finish t.copies (exec i (s.present t))

/-- The host's next move on its first line, with `rest` left to issue. -/
def runLine (strategy : Strategy) (line : Line) (s : State) : Result :=
  match line.act strategy s.vars with
  | .error e => .refused e
  | .ok (.direct m) => .next { s with vars := m }
  | .ok (.assignFree n w) => .next (s.assignFree n w)
  | .ok (.issue t) => transact t s

/-- `(y, cout) = exec(decode(cmd), a, b, cin)`: the block as a function of its four inputs (10_state R39,
00_scope R15), refused for a reserved code. -/
def blockFunction (cmd : Cmd) (a b : Bus) (cin : Bit) : Except Refusal (Bus × Bit) :=
  match transact ⟨cmd, a, b, cin, []⟩ State.reset with
  | .next s => .ok (s.y, s.cout)
  | .refused r => .error r

end Sys2Proof.Machine
end

