-- ==== Sys2Proof/Machine/Step.lean ====
section
/-! DEFINITION. One step of host and block: the first line of the host's program. A transaction is exactly one
step (70_reset R187); a directive is a step of the host alone (log 18). -/

namespace Sys2Proof.Machine

/-- One step. With no line left nothing is presented, and the model has no such moment (93 U5; log 3). -/
def step (s : State) : Host.Outcome State Fault Refusal :=
  match s.program with
  | [] => .refused .nothingPresented
  | line :: rest => runLine Config.addWideStrategy line { s with program := rest }

/-- The command word `w` placed where the next step takes its transaction from: as the host's next line, with
the operands that stand on the ports (log 3, log 5). -/
def State.withFetchWord (s : State) (nbits w : Nat) : State :=
  { s with program := .present (cmdOfWord nbits w) s.a s.b s.cin :: s.program }

end Sys2Proof.Machine
end

