-- ==== Sys2Proof/Safety.lean ====
section
/-! DEFINITION. What counts as a safe step and as a sound state, in the terms the statements use. -/

namespace Sys2Proof.Machine

/-- A step is safe when it answers a next state. -/
def SafeStep (s : State) : Prop := ∃ t, step s = .next t

/-- The outputs follow the inputs (10_state R38): the command on `cmd` is one of the twelve, and running it on
the inputs that stand there gives the outputs that stand there. -/
def OutputsFollowInputs (s : State) : Prop := ∃ i, decode s.cmd = .ok i ∧ exec i s = .next s

/-- The host's map is in its canonical form. -/
def VarsCanonical (s : State) : Prop := varsWf s.vars = true

/-- Does an atom read the variable `n`? -/
def Atom.reads (n : VarName) : Atom → Bool
  | .var m | .slice m _ _ => decide (m = n)
  | .literal _ _ => false

/-- Does a source read the variable `n`? -/
def Source.reads (n : VarName) : Source → Bool
  | .atom a => a.reads n
  | .limbs elems => elems.any (Atom.reads n)
  | .concat parts => parts.any (Atom.reads n)

/-- Is the variable `n` what a source begins with? -/
def Source.readsFirst (n : VarName) : Source → Bool
  | .atom a => a.reads n
  | .limbs elems => elems.head?.any (Atom.reads n)
  | .concat parts => parts.head?.any (Atom.reads n)

/-- Does a line read the variable `n`? -/
def Line.reads (n : VarName) : Line → Bool
  | .present _ _ _ _ => false
  | .txn _ _ srcs => srcs.any (Source.reads n)
  | .letVar _ src => src.reads n
  | .letDiff _ _ _ src => src.reads n
  | .expect m _ _ => decide (m = n)

/-- Is the variable `n` what a line's first source, or what its `.expect`, begins with? -/
def Line.readsFirst (n : VarName) : Line → Bool
  | .present _ _ _ _ => false
  | .txn _ _ srcs => srcs.head?.any (Source.readsFirst n)
  | .letVar _ src => src.readsFirst n
  | .letDiff _ _ _ src => src.readsFirst n
  | .expect m _ _ => decide (m = n)

/-- A 64-bit pattern is canonical when it is below `P` (00_scope glossary; 43_goldilocks R130). -/
def Canonical (x : DWord) : Prop := x.toNat < Config.P.toNat

/-- Two natural numbers are congruent modulo `P` (43_goldilocks R131). -/
def CongruentModP (x z : Nat) : Prop := x % Config.P.toNat = z % Config.P.toNat

end Sys2Proof.Machine
end

