-- ==== Sys2Proof/Certificates/Slice0/Obligations.lean ====
section
/-! DEFINITION. The statements about the model, made from the numbered rules of spec/. A statement of a command's
result concludes `exec i s = .next { s with y := …, cout := … }`: the command completes for every state, and the
record says its frame (the input ports, the host's variables and the host's program are unchanged). -/

open Sys2Proof Sys2Proof.Machine

/-! ## Reset, decoding, the step -/

/-- The state before anything has been presented. The model's choice, no rule: the spec gives the block nothing
to reset and says the outputs mean nothing yet (logs 2 and 3). -/
def Obligations.ResetPortsAreZeroAndHostIsEmpty : Prop :=
  State.reset.cmd = 0 ∧ State.reset.a = 0 ∧ State.reset.b = 0 ∧ State.reset.cin = 0 ∧
  State.reset.y = 0 ∧ State.reset.cout = 0 ∧ State.reset.vars = [] ∧ State.reset.program = []

/-- The codes written out in 30_encoding R74, one word of every family. -/
def Obligations.CommandCodesDecodeAsTabled : Prop :=
  decode 0b0000#4 = .ok .adcF ∧ decode 0b0001#4 = .ok .adcE ∧
  decode 0b0010#4 = .ok .addw2F ∧ decode 0b0011#4 = .ok .addw2E ∧
  decode 0b0100#4 = .ok .addw4F ∧ decode 0b0101#4 = .ok .addw4E ∧
  decode 0b0110#4 = .ok .wmul ∧ decode 0b0111#4 = .ok .wmuld ∧
  decode 0b1000#4 = .ok .red ∧ decode 0b1001#4 = .ok .canon ∧
  decode 0b1010#4 = .ok .fadd ∧ decode 0b1011#4 = .ok .fmul

/-- Decoding and encoding agree in both directions, so no code is shared and none is dropped (30_encoding R74). -/
def Obligations.DecodeAndEncodeAgree : Prop :=
  (∀ i : Instr, i.wf = true → decode (encode i) = .ok i) ∧
  (∀ (c : Cmd) (i : Instr), decode c = .ok i → encode i = c)

/-- 30_encoding R75: the reserved codes, and only they, are refused, by the decoder and by a step that presents
one, whatever the operands and the rest of the state; nothing is raised. -/
def Obligations.ReservedCodesAreRefused : Prop :=
  (∀ c : Cmd, 0xC ≤ c.toNat ↔ decode c = .error (.reservedCode c)) ∧
  (∀ c : Cmd, 0xC ≤ c.toNat ↔ ∀ i, decode c ≠ .ok i) ∧
  (∀ (s : State) (c : Cmd) (a b : Bus) (cin : Bit) (rest : List Line), 0xC ≤ c.toNat →
    step { s with program := .present c a b cin :: rest } = .refused (.reservedCommand c))

/-- A step runs the decoded command: when the host's next line presents four inputs and the code decodes, the
step is `exec` on the state in which the ports hold those inputs and the line has been taken off the program. -/
def Obligations.StepRunsThePresentedCommand : Prop :=
  ∀ (s : State) (c : Cmd) (a b : Bus) (cin : Bit) (rest : List Line) (i : Instr),
    s.program = .present c a b cin :: rest → decode c = .ok i →
    step s = exec i { s with cmd := c, a := a, b := b, cin := cin, program := rest }

/-- The same for every line that issues a transaction: present, decode, execute, copy the answer out (30_encoding
R77, 10_state R40). That the copying belongs to the same step is the model's choice (log 18). -/
def Obligations.StepRunsTheIssuedTransaction : Prop :=
  ∀ (s u : State) (line : Line) (rest : List Line) (t : Issue) (i : Instr),
    s.program = line :: rest → line.act Config.addWideStrategy s.vars = .ok (.issue t) →
    decode t.cmd = .ok i →
    exec i { s with cmd := t.cmd, a := t.a, b := t.b, cin := t.cin, program := rest } = .next u →
    step s = .next (u.copyOut t.copies)

/-- A command word placed by `withFetchWord` is what the next step runs, on the operands that stand on the ports.
How a program comes to be there is the model's choice (logs 3 and 5). -/
def Obligations.PlacedWordRunsNext : Prop :=
  ∀ (s : State) (nbits w : Nat) (i : Instr), decodeTableWord nbits w = some i →
    step (s.withFetchWord nbits w) = exec i { s with cmd := cmdOfWord nbits w }

/-- With no line left no transaction is presented, and the model has no such moment: the model's choice of how to
say so, after 93_implementation_defined U5 (log 3). -/
def Obligations.EmptyProgramIsRefused : Prop :=
  ∀ s : State, s.program = [] → step s = .refused .nothingPresented

/-- 00_scope R19: every command is defined for every value of its operand ports, and leaves everything but the two
outputs as it was. -/
def Obligations.EveryCommandCompletesOnAllOperands : Prop :=
  ∀ (i : Instr) (s : State), ∃ y cout, exec i s = .next { s with y := y, cout := cout }

/-- 60_exceptions R160 together with R75: a step that issues a transaction stops only on a reserved code. An
assembled line never holds one, so it always completes. -/
def Obligations.IssuedTransactionStopsOnlyOnReservedCode : Prop :=
  ∀ (s : State) (line : Line) (rest : List Line) (t : Issue),
    s.program = line :: rest → line.act Config.addWideStrategy s.vars = .ok (.issue t) →
    (t.cmd.toNat < 0xC → SafeStep s) ∧ (0xC ≤ t.cmd.toNat → step s = .refused (.reservedCommand t.cmd)) ∧
    ((∃ m dests srcs, line = .txn m dests srcs) → t.cmd.toNat < 0xC)

/-! ## One limb -/

/-- 40_limb_adder R90, for every width: limb sum and carry-out are the remainder and the quotient of the true sum,
and together they lose nothing. -/
def Obligations.LimbAdditionLaw : Prop :=
  ∀ (k : Nat) (x z : BitVec k) (ci : Bit),
    let T := x.toNat + z.toNat + ci.toNat
    let r := adcFlag x z ci
    T ≤ 2 ^ (k + 1) - 1 ∧ r.1.toNat = T % 2 ^ k ∧ r.2.toNat = T / 2 ^ k ∧ T / 2 ^ k ≤ 1 ∧
    T = r.1.toNat + r.2.toNat * 2 ^ k

/-- 40_limb_adder R91: comparing a wrapped sum with either operand, or a wrapped difference with the prior
operand, tells exactly whether the operation wrapped. -/
def Obligations.ComparisonDetectsWrap : Prop :=
  ∀ (k : Nat) (x z : BitVec k),
    (ltu (addK x z) x = 1#1 ↔ 2 ^ k ≤ x.toNat + z.toNat) ∧
    ltu (addK x z) z = ltu (addK x z) x ∧
    (ltu x z = 1#1 ↔ x.toNat < z.toNat) ∧
    (ltu x (subK x z) = 1#1 ↔ x.toNat < z.toNat) ∧
    (subK x z).toNat + z.toNat = x.toNat + (ltu x z).toNat * 2 ^ k

/-- 40_limb_adder R94: the two strategies give the same outputs for every width of at least one bit, and so do the
two commands. -/
def Obligations.EmulatedLimbEqualsFlagLimb : Prop :=
  (∀ (k : Nat) (x z : BitVec k) (ci : Bit), 1 ≤ k → adcEmul x z ci = adcFlag x z ci) ∧
  (∀ s : State, exec .adcE s = exec .adcF s)

/-- What the spec derives in 40_limb_adder section 3 (R95, marked "[derived: from rule R91]"): the two carries of
an emulated step exclude each other, and one comparison would miss a carry. -/
def Obligations.EmulatedCarriesExcludeEachOther : Prop :=
  (∀ (k : Nat) (x z : BitVec k) (ci : Bit), 1 ≤ k →
    let w := adcWires x z ci
    ¬ (w.c0 = 1#1 ∧ w.c1 = 1#1) ∧ w.c0 ||| w.c1 = w.c0 ^^^ w.c1 ∧
    (w.c0 ||| w.c1).toNat = w.c0.toNat + w.c1.toNat ∧ (w.c0 = 1#1 → w.t.toNat ≤ 2 ^ k - 2)) ∧
  (let w := adcWires 0xFFFFFFFF#32 0xFFFFFFFF#32 1#1
   ltu w.u 0xFFFFFFFF#32 = 0#1 ∧ w.c0 ||| w.c1 = 1#1) ∧
  (let w := adcWires 0#32 0xFFFFFFFF#32 1#1
   ltu w.u 0#32 = 0#1 ∧ w.c0 ||| w.c1 = 1#1)

/-- 40_limb_adder R92: ADC.F answers the exact 33-bit sum, low 32 bits on `y`, top bit on `cout`; and the same
function for any width. -/
def Obligations.AdcFlagCommandAnswersExactSum : Prop :=
  decode 0x0#4 = .ok .adcF ∧
  (∀ s : State,
    let T := s.a.toNat % 2 ^ 32 + s.b.toNat % 2 ^ 32 + s.cin.toNat
    exec .adcF s = .next { s with y := BitVec.ofNat 128 (T % 2 ^ 32), cout := BitVec.ofNat 1 (T / 2 ^ 32) }) ∧
  (∀ (k : Nat) (x z : BitVec k) (ci : Bit),
    let T := x.toNat + z.toNat + ci.toNat
    adcFlag x z ci = (BitVec.ofNat k (T % 2 ^ k), BitVec.ofNat 1 (T / 2 ^ k)))

/-- 40_limb_adder R93: ADC.E adds twice, wrapping, and ORs the two comparisons; and the same function for any
width. -/
def Obligations.AdcEmulatedCommandComparesTwice : Prop :=
  decode 0x1#4 = .ok .adcE ∧
  (∀ s : State,
    let x := s.a.toNat % 2 ^ 32
    let t := (x + s.b.toNat % 2 ^ 32) % 2 ^ 32
    let u := (t + s.cin.toNat) % 2 ^ 32
    exec .adcE s = .next { s with y := BitVec.ofNat 128 u, cout := if t < x ∨ u < t then 1#1 else 0#1 }) ∧
  (∀ (k : Nat) (x z : BitVec k) (ci : Bit), 1 ≤ k →
    let t := (x.toNat + z.toNat) % 2 ^ k
    let u := (t + ci.toNat) % 2 ^ k
    adcEmul x z ci = (BitVec.ofNat k u, if t < x.toNat ∨ u < t then 1#1 else 0#1))

/-- A host that feeds `cout` of one ADC to `cin` of the next adds longer integers (10_state R33, 40_limb_adder
section 3), and a chain that mixes the strategies gives the same result (41_wide_adder R110). Two limbs. -/
def Obligations.ChainedAdcAddsTwoLimbsUnderAnyMix : Prop :=
  ∀ (i j : Instr) (s t u : State), i ∈ [Instr.adcF, Instr.adcE] → j ∈ [Instr.adcF, Instr.adcE] →
    s.cin = 0#1 → exec i s = .next t →
    ∀ x z : Bus, exec j { t with a := x, b := z, cin := t.cout } = .next u →
      (s.a.toNat % 2 ^ 32 + x.toNat % 2 ^ 32 * 2 ^ 32) + (s.b.toNat % 2 ^ 32 + z.toNat % 2 ^ 32 * 2 ^ 32) =
        t.y.toNat + u.y.toNat * 2 ^ 32 + u.cout.toNat * 2 ^ 64

/-! ## Chains of limbs -/

/-- 41_wide_adder R100 and R101, for every limb width and every length: the carry into limb 0 is 0, limb `j` and
the carry after it are the limb step of limb `j` of the operands and the carry before it, and the last carry comes
out. In the emulated chain limb 0 is the plain sum, and its carry the one comparison. -/
def Obligations.ChainsCarryFromLimbToLimb : Prop :=
  ∀ (k : Nat) (xs zs : List (BitVec k)), xs.length = zs.length →
    (∃ c : Nat → Bit, c 0 = 0#1 ∧ (addWideFlag xs zs).1.length = xs.length ∧
      (addWideFlag xs zs).2 = c xs.length ∧
      ∀ j, j < xs.length →
        ((addWideFlag xs zs).1.getD j 0, c (j + 1)) = adcFlag (xs.getD j 0) (zs.getD j 0) (c j)) ∧
    (∃ c : Nat → Bit, c 0 = 0#1 ∧ (addWideEmul xs zs).1.length = xs.length ∧
      (addWideEmul xs zs).2 = c xs.length ∧
      (∀ j, j < xs.length →
        ((addWideEmul xs zs).1.getD j 0, c (j + 1)) = adcEmul (xs.getD j 0) (zs.getD j 0) (c j)) ∧
      (0 < xs.length →
        (addWideEmul xs zs).1.getD 0 0 = addK (xs.getD 0 0) (zs.getD 0 0) ∧
        c 1 = ltu (addK (xs.getD 0 0) (zs.getD 0 0)) (xs.getD 0 0)))

/-- 41_wide_adder R107, for both variants, every limb width and every length: the chain computes the sum of the
integers the operands stand for, modulo `2^(k*n)`, and its carry-out is the rest. -/
def Obligations.ChainsComputeTheIntegerSum : Prop :=
  ∀ (k : Nat) (xs zs : List (BitVec k)), 1 ≤ k → xs.length = zs.length →
    ∀ r ∈ [addWideFlag xs zs, addWideEmul xs zs],
      let m := 2 ^ (k * xs.length)
      wideValue r.1 = (wideValue xs + wideValue zs) % m ∧
      r.2.toNat = (wideValue xs + wideValue zs) / m ∧
      (r.2 = 1#1 ↔ m ≤ wideValue xs + wideValue zs) ∧
      wideValue xs + wideValue zs = wideValue r.1 + r.2.toNat * m

/-- 41_wide_adder R108: the flag-assisted and the emulated adder are one function, at every width and length, and
so are the commands. That it holds of any `k` and `n` the spec derives ("The same holds for 2 limbs and for any `k`,
`n`"). -/
def Obligations.WideAdderVariantsAgree : Prop :=
  (∀ (k : Nat) (xs zs : List (BitVec k)), 1 ≤ k → addWideEmul xs zs = addWideFlag xs zs) ∧
  (∀ s : State, exec .addw2E s = exec .addw2F s ∧ exec .addw4E s = exec .addw4F s)

/-- 41_wide_adder R102 to R106 and R109: all four wide adds drive the sum modulo `2^(32*N)` and the carry out of the
last limb, `cin` has no part in either, and no command reads the outputs of another. -/
def Obligations.WideAddCommandsDriveSumAndFinalCarry : Prop :=
  decode 0x2#4 = .ok .addw2F ∧ decode 0x3#4 = .ok .addw2E ∧ decode 0x4#4 = .ok .addw4F ∧
  decode 0x5#4 = .ok .addw4E ∧
  (∀ (i : Instr) (s : State) (y : Bus) (cout : Bit), exec i { s with y := y, cout := cout } = exec i s) ∧
  ∀ s : State,
    (let T := s.a.toNat % 2 ^ 64 + s.b.toNat % 2 ^ 64
     let t := { s with y := BitVec.ofNat 128 (T % 2 ^ 64), cout := BitVec.ofNat 1 (T / 2 ^ 64) }
     exec .addw2F s = .next t ∧ exec .addw2E s = .next t) ∧
    (let T := s.a.toNat + s.b.toNat
     let t := { s with y := BitVec.ofNat 128 (T % 2 ^ 128), cout := BitVec.ofNat 1 (T / 2 ^ 128) }
     exec .addw4F s = .next t ∧ exec .addw4E s = .next t)

/-- 43_goldilocks section 2 (the last sentences of R133): the 64-bit helper with its carry is the two-limb add on
the 32-bit datapath, with either strategy. -/
def Obligations.SixtyFourBitAddIsTwoLimbAdd : Prop :=
  ∀ x z : DWord,
    let cut (v : DWord) : List Limb := [v.extractLsb' 0 32, v.extractLsb' 32 32]
    addWideFlag (cut x) (cut z) = (cut (addc x z).1, (addc x z).2) ∧
    addWideEmul (cut x) (cut z) = (cut (addc x z).1, (addc x z).2)

/-! ## The multiplier -/

/-- The contract of 42_widening_multiplier section 1 (R116) for the decomposition of section 2, which the spec
gives for even widths: nothing of the product is lost. -/
def Obligations.WidenMulGivesTheExactProduct : Prop :=
  ∀ (h : Nat) (x z : BitVec (2 * h)),
    let p := widenMul x z
    p.1.toNat + p.2.toNat * 2 ^ (2 * h) = x.toNat * z.toNat ∧
    p.1.toNat = x.toNat * z.toNat % 2 ^ (2 * h) ∧ p.2.toNat = x.toNat * z.toNat / 2 ^ (2 * h)

/-- What the spec derives in 42_widening_multiplier section 2 (R118): every half-product is exact, the two carry
bits account for the two wraps, the shift loses only what is added to `hi`, and the sum that forms `hi` never
wraps. -/
def Obligations.AccumulationLosesNoBit : Prop :=
  ∀ (h : Nat) (x z : BitVec (2 * h)),
    let p := halfProducts x z
    let w := accumulate p
    p.ll.toNat = (x.toNat % 2 ^ h) * (z.toNat % 2 ^ h) ∧ p.lh.toNat = (x.toNat % 2 ^ h) * (z.toNat / 2 ^ h) ∧
    p.hl.toNat = (x.toNat / 2 ^ h) * (z.toNat % 2 ^ h) ∧ p.hh.toNat = (x.toNat / 2 ^ h) * (z.toNat / 2 ^ h) ∧
    w.cross.toNat + w.c1.toNat * 2 ^ (2 * h) = p.lh.toNat + p.hl.toNat ∧
    w.sh.toNat + w.cross.toNat / 2 ^ h * 2 ^ (2 * h) = w.cross.toNat * 2 ^ h ∧
    w.lo.toNat + w.c2.toNat * 2 ^ (2 * h) = p.ll.toNat + w.sh.toNat ∧
    w.hi.toNat = p.hh.toNat + w.cross.toNat / 2 ^ h + w.c1.toNat * 2 ^ h + w.c2.toNat

/-- What the spec derives in 42_widening_multiplier section 4 (R122). -/
def Obligations.WidenMulLaws : Prop :=
  ∀ (h : Nat) (x z : BitVec (2 * h)), 1 ≤ h →
    widenMul x z = widenMul z x ∧ (x = 0 ∨ z = 0 → widenMul x z = (0, 0)) ∧
    ((widenMul x z).2 = 0 ↔ x.toNat * z.toNat < 2 ^ (2 * h)) ∧
    (widenMul x z).2.toNat ≤ 2 ^ (2 * h) - 2 ∧
    ((widenMul x z).2.toNat = 2 ^ (2 * h) - 2 →
      (widenMul x z).1.toNat = 1 ∧ x.toNat = 2 ^ (2 * h) - 1 ∧ z.toNat = 2 ^ (2 * h) - 1)

/-- 42_widening_multiplier R119: WMUL answers the 64-bit product of the two words. -/
def Obligations.WmulCommandAnswersTheProduct : Prop :=
  decode 0x6#4 = .ok .wmul ∧
  ∀ s : State, exec .wmul s =
    .next { s with y := BitVec.ofNat 128 ((s.a.toNat % 2 ^ 32) * (s.b.toNat % 2 ^ 32)), cout := 0#1 }

/-- 42_widening_multiplier R120: WMULD answers the 128-bit product, and building each half-product as one word
multiplication changes nothing. -/
def Obligations.WmuldCommandAnswersTheProductAndLifts : Prop :=
  decode 0x7#4 = .ok .wmuld ∧
  (∀ s : State, exec .wmuld s =
    .next { s with y := BitVec.ofNat 128 ((s.a.toNat % 2 ^ 64) * (s.b.toNat % 2 ^ 64)), cout := 0#1 }) ∧
  (∀ x z : DWord, widenMulLift x z = widenMul x z)

/-! ## The Goldilocks field -/

/-- 00_scope R8: the two constants. -/
def Obligations.GoldilocksConstants : Prop :=
  Config.P.toNat = 2 ^ 64 - 2 ^ 32 + 1 ∧ Config.EPS.toNat = 2 ^ 32 - 1 ∧
  Config.P.toNat = 2 ^ 64 - Config.EPS.toNat ∧ CongruentModP (2 ^ 64) Config.EPS.toNat

/-- 43_goldilocks R131: the three congruences the reducer rests on. -/
def Obligations.GoldilocksCongruences : Prop :=
  CongruentModP (2 ^ 64) Config.EPS.toNat ∧ CongruentModP (2 ^ 96 + 1) 0 ∧
  ∀ hi : DWord, ((hi.toNat * 2 ^ 64 : Nat) : Int) % Config.P.toNat =
    ((hi.extractLsb' 0 32).toNat * Config.EPS.toNat - (hi.extractLsb' 32 32).toNat : Int) % Config.P.toNat

/-- 43_goldilocks R132: after a wrap of a 64-bit addition adding `EPS`, and after a wrap of a subtraction
subtracting `EPS`, restores the residue; the wrap is seen by the comparison. (Over the integers, as the repair may
itself wrap.) -/
def Obligations.CorrectionsRestoreTheResidue : Prop :=
  ∀ x z : DWord,
    ((addc x z).2 = 1#1 →
      (addc x z).1.toNat + 2 ^ 64 = x.toNat + z.toNat ∧
      CongruentModP ((addc x z).1.toNat + Config.EPS.toNat) (x.toNat + z.toNat)) ∧
    ((subb x z).2 = 1#1 →
      (subb x z).1.toNat + z.toNat = x.toNat + 2 ^ 64 ∧
      (((subb x z).1.toNat : Int) - Config.EPS.toNat) % Config.P.toNat =
        ((x.toNat : Int) - z.toNat) % Config.P.toNat)

/-- 43_goldilocks R134: the exact representative RED answers. `u` is the rule's `t0'`, `v` the true value of
`t0' + t1`. -/
def Obligations.RedCommandAnswersItsRepresentative : Prop :=
  decode 0x8#4 = .ok .red ∧
  ∀ s : State,
    let P := Config.P.toNat
    let lo := s.a.toNat % 2 ^ 64
    let hi := s.a.toNat / 2 ^ 64
    let u := if hi / 2 ^ 32 ≤ lo then lo - hi / 2 ^ 32 else lo + P - hi / 2 ^ 32
    let v := u + hi % 2 ^ 32 * Config.EPS.toNat
    exec .red s = .next { s with y := BitVec.ofNat 128 (if v < 2 ^ 64 then v else v - P), cout := 0#1 }

/-- The contract of the reducer and what the spec derives with it (43_goldilocks section 2, R135): the result is
congruent, canonicalising it lands below `P`, neither correction wraps, and every pair of corrections occurs. -/
def Obligations.ReduceIsCongruentAndItsCorrectionsNeverWrap : Prop :=
  (∀ lo hi : DWord,
    let w := redWires lo hi
    CongruentModP (reduce lo hi).toNat (lo.toNat + hi.toNat * 2 ^ 64) ∧ Canonical (canonicalize (reduce lo hi)) ∧
    (w.b = 1#1 → Config.EPS.toNat ≤ w.t0.toNat) ∧ w.t1.toNat = hi.toNat % 2 ^ 32 * Config.EPS.toNat ∧
    (w.c = 1#1 → w.t2.toNat + Config.EPS.toNat < 2 ^ 64)) ∧
  (∀ b c : Bit, ∃ lo hi : DWord, (redWires lo hi).b = b ∧ (redWires lo hi).c = c)

/-- 43_goldilocks R137: CANON answers `x mod P`, which is canonical, for every pattern; it is idempotent. -/
def Obligations.CanonCommandAnswersTheResidue : Prop :=
  decode 0x9#4 = .ok .canon ∧
  (∀ s : State, exec .canon s =
    .next { s with y := BitVec.ofNat 128 (s.a.toNat % 2 ^ 64 % Config.P.toNat), cout := 0#1 }) ∧
  (∀ x : DWord, Canonical (canonicalize x) ∧ canonicalize (canonicalize x) = canonicalize x)

/-- 43_goldilocks R138: two representatives stand for the same residue exactly when CANON
makes them equal, and RED, FADD and FMUL do not canonicalise. -/
def Obligations.CanonDecidesEqualityOfResidues : Prop :=
  (∀ x z : DWord, CongruentModP x.toNat z.toNat ↔ canonicalize x = canonicalize z) ∧
  (∀ i ∈ [Instr.red, Instr.fadd, Instr.fmul], ∃ s t : State, exec i s = .next t ∧ ¬ Canonical (low64 t.y))

/-- 43_goldilocks R139: the exact representative FADD answers, for any two patterns: no, one or two corrections. -/
def Obligations.FaddCommandAnswersItsRepresentative : Prop :=
  decode 0xA#4 = .ok .fadd ∧
  ∀ s : State,
    let P := Config.P.toNat
    let T := s.a.toNat % 2 ^ 64 + s.b.toNat % 2 ^ 64
    let r := if T < 2 ^ 64 then T else if T < 2 ^ 64 + P then T - P else T - 2 * P
    exec .fadd s = .next { s with y := BitVec.ofNat 128 r, cout := 0#1 }

/-- What the spec derives in 43_goldilocks section 4 (R140): FADD is congruent to the sum and commutative, the
second correction never wraps, and it fires only for two patterns above `P`. -/
def Obligations.FieldAddIsCongruentAndCommutative : Prop :=
  ∀ x z : DWord,
    let w := faddWires x z
    CongruentModP (fieldAdd x z).toNat (x.toNat + z.toNat) ∧ fieldAdd x z = fieldAdd z x ∧
    (w.c1 = 1#1 → w.s1.toNat + Config.EPS.toNat < 2 ^ 64 ∧ Config.P.toNat < x.toNat ∧ Config.P.toNat < z.toNat)

/-- 43_goldilocks R141: FMUL is WMULD followed by RED, the `y` of the first wired to the `a` of the second. -/
def Obligations.FmulCommandIsWmuldThenRed : Prop :=
  decode 0xB#4 = .ok .fmul ∧
  ∀ s : State, ∃ t u : State,
    exec .wmuld s = .next t ∧ t.y.toNat = (s.a.toNat % 2 ^ 64) * (s.b.toNat % 2 ^ 64) ∧
    exec .red { t with a := t.y } = .next u ∧
    exec .fmul s = .next { s with y := u.y, cout := 0#1 }

/-- What the spec derives in 43_goldilocks section 5 (R142), with DOC0's scenario: FMUL is congruent to the product
and fits 64 bits. -/
def Obligations.FieldMulIsCongruentToTheProduct : Prop :=
  (∀ x z : DWord, CongruentModP (fieldMul x z).toNat (x.toNat * z.toNat) ∧ fieldMul x z = fieldMul z x) ∧
  (canonicalize (fieldMul 0x00000000FFFFFFFF#64 2#64)).toNat = 2 ^ 33 - 2

/-- 43_goldilocks R143: the round trip with the negation taken of the canonical value, or with any pattern congruent
to it, for all patterns. The literal form of DOC0 holds when the product is at most `P`; above it, as on the spec's
input, it gives `EPS`. That any pattern congruent to the negation serves the spec derives ("The property holds when
the second argument of `field_add` is a 64-bit pattern congruent to `-m` modulo `P`"). -/
def Obligations.FieldRoundTripIsZero : Prop :=
  (∀ a b : DWord,
    let m := fieldMul a b
    let n := Config.P.toNat - (canonicalize m).toNat
    (1 ≤ n ∧ n ≤ Config.P.toNat) ∧ canonicalize (fieldAdd m (BitVec.ofNat 64 n)) = 0 ∧
    (∀ w : DWord, CongruentModP (m.toNat + w.toNat) 0 → canonicalize (fieldAdd m w) = 0) ∧
    (m.toNat ≤ Config.P.toNat → canonicalize (fieldAdd m (subK Config.P m)) = 0) ∧
    (Config.P.toNat < m.toNat → canonicalize (fieldAdd m (subK Config.P m)) = Config.EPS)) ∧
  (let m := fieldMul 0xFFFFFFFFFFFFFFFF#64 1#64
   canonicalize (fieldAdd m (subK Config.P m)) = Config.EPS)

/-! ## Whole-machine rules -/

/-- 00_scope R18: no command loses information of the true result, and the field commands answer congruent
values. -/
def Obligations.NoInformationIsLost : Prop :=
  ∀ s : State,
    let a32 := s.a.toNat % 2 ^ 32
    let b32 := s.b.toNat % 2 ^ 32
    let a64 := s.a.toNat % 2 ^ 64
    let b64 := s.b.toNat % 2 ^ 64
    (∀ i ∈ [Instr.adcF, Instr.adcE], ∃ t, exec i s = .next t ∧
      t.y.toNat + t.cout.toNat * 2 ^ 32 = a32 + b32 + s.cin.toNat) ∧
    (∀ i ∈ [Instr.addw2F, Instr.addw2E], ∃ t, exec i s = .next t ∧
      t.y.toNat + t.cout.toNat * 2 ^ 64 = a64 + b64) ∧
    (∀ i ∈ [Instr.addw4F, Instr.addw4E], ∃ t, exec i s = .next t ∧
      t.y.toNat + t.cout.toNat * 2 ^ 128 = s.a.toNat + s.b.toNat) ∧
    (∃ t, exec .wmul s = .next t ∧ t.y.toNat = a32 * b32) ∧
    (∃ t, exec .wmuld s = .next t ∧ t.y.toNat = a64 * b64) ∧
    (∃ t, exec .red s = .next t ∧ CongruentModP t.y.toNat s.a.toNat ∧ t.y.toNat < 2 ^ 64) ∧
    (∃ t, exec .canon s = .next t ∧ CongruentModP t.y.toNat a64 ∧ t.y.toNat < Config.P.toNat) ∧
    (∃ t, exec .fadd s = .next t ∧ CongruentModP t.y.toNat (a64 + b64) ∧ t.y.toNat < 2 ^ 64) ∧
    (∃ t, exec .fmul s = .next t ∧ CongruentModP t.y.toNat (a64 * b64) ∧ t.y.toNat < 2 ^ 64)

/-- 20_memory R54 (over the table of R53): input bits outside those the table lists for a command change
neither output, and output bits outside those it lists are 0. -/
def Obligations.IgnoredInputBitsAndUnusedOutputBits : Prop :=
  ∀ (i : Instr) (s s' : State),
    s.a &&& readsA i = s'.a &&& readsA i → s.b &&& readsB i = s'.b &&& readsB i →
    s.cin &&& readsCin i = s'.cin &&& readsCin i →
    ∃ t t', exec i s = .next t ∧ exec i s' = .next t' ∧ t.y = t'.y ∧ t.cout = t'.cout ∧
      t.y &&& ~~~ drivesY i = 0 ∧ t.cout &&& ~~~ drivesCout i = 0

/-- 20_memory R57: the outputs of a transaction depend on its own inputs only, on any two machines (two states stand
for two instances, log 8) and after any other transaction, so two transactions may be evaluated in either order. -/
def Obligations.TransactionsAreIndependent : Prop :=
  (∀ (s s' : State) (c : Cmd) (a b : Bus) (cin : Bit) (rest rest' : List Line), c.toNat < 0xC →
    s.program = .present c a b cin :: rest → s'.program = .present c a b cin :: rest' →
    ∃ t t', step s = .next t ∧ step s' = .next t' ∧ t.y = t'.y ∧ t.cout = t'.cout ∧
      blockFunction c a b cin = .ok (t.y, t.cout)) ∧
  (∀ (s : State) (c1 c2 : Cmd) (a1 b1 a2 b2 : Bus) (cin1 cin2 : Bit), c1.toNat < 0xC → c2.toNat < 0xC →
    ∃ t1 t2 u1 u2,
      step { s with program := [.present c1 a1 b1 cin1, .present c2 a2 b2 cin2] } = .next t1 ∧ step t1 = .next t2 ∧
      step { s with program := [.present c2 a2 b2 cin2, .present c1 a1 b1 cin1] } = .next u2 ∧ step u2 = .next u1 ∧
      t1.y = u1.y ∧ t1.cout = u1.cout ∧ t2.y = u2.y ∧ t2.cout = u2.cout)

/-- The invariant behind 10_state R38 ("the outputs follow the inputs"), over every state that meets it: no step,
of the host or of the block, leaves outputs that are not the answer to the inputs. -/
def Obligations.StepKeepsOutputsFollowingInputs : Prop :=
  ∀ s s' : State, OutputsFollowInputs s → step s = .next s' → OutputsFollowInputs s'

/-- The host's map keeps its canonical form (10_state R40: a finite map; its representation is the model's, log 1). -/
def Obligations.StepKeepsHostMapCanonical : Prop :=
  ∀ s s' : State, VarsCanonical s → step s = .next s' → VarsCanonical s'

/-- Both invariants hold before anything has been presented; that the ports then agree with each other is the
model's choice (log 2). -/
def Obligations.ResetMeetsBothInvariants : Prop :=
  OutputsFollowInputs State.reset ∧ VarsCanonical State.reset

/-- 00_scope R9: whichever strategy the names ADDW, ADC, `add` and `add_wide` stand for, every host line has the
same outcome, but for the code that stands on `cmd`. -/
def Obligations.StrategyChangesNoOutcome : Prop :=
  ∀ (line : Line) (s : State),
    (∃ r, runLine .flag line s = .refused r ∧ runLine .emul line s = .refused r) ∨
    (∃ t u, runLine .flag line s = .next t ∧ runLine .emul line s = .next u ∧ u = { t with cmd := u.cmd })

/-! ## The host's lines -/

/-- The rows of 30_encoding R77 for ADC.F and ADC.E, end to end: the operands reach the ports, and the named
variables receive sum and carry; `_` discards, and no other variable changes. -/
def Obligations.AdcLineAssignsSumAndCarry : Prop :=
  ∀ (s : State) (i : Instr) (d e : Dest) (x z ci : Source) (X Z C : Nat) (rest : List Line),
    i ∈ [Instr.adcF, Instr.adcE] → s.program = .txn (.core i) [d, e] [x, z, ci] :: rest →
    destsWf [d, e] = true → x.wf = true → z.wf = true → ci.wf = true →
    x.operand s.vars 32 = .ok X → z.operand s.vars 32 = .ok Z → ci.operand s.vars 1 = .ok C →
    ∃ t, step s = .next t ∧ t.program = rest ∧
      t.cmd = encode i ∧ t.a.toNat = X ∧ t.b.toNat = Z ∧ t.cin.toNat = C ∧
      (∀ n, d = some n → lookupVar t.vars n = some ⟨32, BitVec.ofNat 32 (X + Z + C)⟩) ∧
      (∀ n, e = some n → lookupVar t.vars n = some ⟨1, BitVec.ofNat 1 ((X + Z + C) / 2 ^ 32)⟩) ∧
      (∀ n, d ≠ some n → e ≠ some n → lookupVar t.vars n = lookupVar s.vars n)

/-- The rows of 30_encoding R77 for the four wide adds, end to end. -/
def Obligations.WideAddLineAssignsSumAndCarry : Prop :=
  ∀ (s : State) (i : Instr) (w : Nat) (d e : Dest) (x z : Source) (X Z : Nat) (rest : List Line),
    (i, w) ∈ [(Instr.addw2F, 64), (Instr.addw2E, 64), (Instr.addw4F, 128), (Instr.addw4E, 128)] →
    s.program = .txn (.core i) [d, e] [x, z] :: rest →
    destsWf [d, e] = true → x.wf = true → z.wf = true →
    x.operand s.vars w = .ok X → z.operand s.vars w = .ok Z →
    ∃ t, step s = .next t ∧ t.program = rest ∧
      t.cmd = encode i ∧ t.a.toNat = X ∧ t.b.toNat = Z ∧ t.cin = 0#1 ∧
      (∀ n, d = some n → lookupVar t.vars n = some ⟨w, BitVec.ofNat w (X + Z)⟩) ∧
      (∀ n, e = some n → lookupVar t.vars n = some ⟨1, BitVec.ofNat 1 ((X + Z) / 2 ^ w)⟩) ∧
      (∀ n, d ≠ some n → e ≠ some n → lookupVar t.vars n = lookupVar s.vars n)

/-- The rows of 30_encoding R77 for WMUL and WMULD, end to end. -/
def Obligations.MultiplyLineAssignsBothHalves : Prop :=
  ∀ (s : State) (i : Instr) (w : Nat) (d e : Dest) (x z : Source) (X Z : Nat) (rest : List Line),
    (i, w) ∈ [(Instr.wmul, 32), (Instr.wmuld, 64)] →
    s.program = .txn (.core i) [d, e] [x, z] :: rest →
    destsWf [d, e] = true → x.wf = true → z.wf = true →
    x.operand s.vars w = .ok X → z.operand s.vars w = .ok Z →
    ∃ t, step s = .next t ∧ t.program = rest ∧
      t.cmd = encode i ∧ t.a.toNat = X ∧ t.b.toNat = Z ∧ t.cin = 0#1 ∧
      (∀ n, d = some n → lookupVar t.vars n = some ⟨w, BitVec.ofNat w (X * Z)⟩) ∧
      (∀ n, e = some n → lookupVar t.vars n = some ⟨w, BitVec.ofNat w (X * Z / 2 ^ w)⟩) ∧
      (∀ n, d ≠ some n → e ≠ some n → lookupVar t.vars n = lookupVar s.vars n)

/-- The rows of 30_encoding R77 for RED, FADD and FMUL, end to end: a representative of the true result. -/
def Obligations.FieldLineAssignsARepresentative : Prop :=
  ∀ (s : State) (i : Instr) (d : Dest) (x z : Source) (X Z : Nat) (rest : List Line),
    i ∈ [Instr.red, Instr.fadd, Instr.fmul] →
    s.program = .txn (.core i) [d] [x, z] :: rest → x.wf = true → z.wf = true →
    x.operand s.vars 64 = .ok X → z.operand s.vars 64 = .ok Z →
    ∃ t r, step s = .next t ∧ t.program = rest ∧ t.cmd = encode i ∧ t.cin = 0#1 ∧
      (i = .red → t.a.toNat = X + Z * 2 ^ 64 ∧ t.b = 0) ∧ (i ≠ .red → t.a.toNat = X ∧ t.b.toNat = Z) ∧
      r < 2 ^ 64 ∧ (i = .red → CongruentModP r (X + Z * 2 ^ 64)) ∧ (i = .fadd → CongruentModP r (X + Z)) ∧
      (i = .fmul → CongruentModP r (X * Z)) ∧
      (∀ n, d = some n → lookupVar t.vars n = some ⟨64, BitVec.ofNat 64 r⟩) ∧
      (∀ n, d ≠ some n → lookupVar t.vars n = lookupVar s.vars n)

/-- The row of 30_encoding R77 for CANON, end to end. -/
def Obligations.CanonLineAssignsTheResidue : Prop :=
  ∀ (s : State) (d : Dest) (x : Source) (X : Nat) (rest : List Line),
    s.program = .txn (.core .canon) [d] [x] :: rest → x.wf = true → x.operand s.vars 64 = .ok X →
    ∃ t, step s = .next t ∧ t.program = rest ∧
      t.cmd = encode .canon ∧ t.a.toNat = X ∧ t.b = 0 ∧ t.cin = 0#1 ∧
      (∀ n, d = some n → lookupVar t.vars n = some ⟨64, BitVec.ofNat 64 (X % Config.P.toNat)⟩) ∧
      (∀ n, d ≠ some n → lookupVar t.vars n = lookupVar s.vars n)

/-- The directives of 30_encoding R77 produce no transaction: every port stays as it is, `.let` changes the named
variable only, and an `.expect` that holds changes nothing. The spec states no result of a negative difference: the
variable then receives a free value, of which nothing is said but its width (logs 12 and 22). That a false `.expect`
stops the host is the model's choice (log 13), and so is a literal's width in a `.let` (log 20). -/
def Obligations.DirectivesProduceNoTransaction : Prop :=
  ∀ (s : State) (line : Line) (rest : List Line), s.program = line :: rest →
    (∀ n src v, line = .letVar n src → src.wf = true → src.value s.vars = .ok v →
      step s = .next { s with vars := assignVar s.vars n v, program := rest }) ∧
    (∀ n k c src v, line = .letDiff n k c src → literalWf k c = true → src.wf = true → src.value s.vars = .ok v →
      (v.bits.toNat ≤ c → step s = .next
        { s with vars := assignVar s.vars n ⟨4 * k, BitVec.ofNat (4 * k) (c - v.bits.toNat)⟩, program := rest }) ∧
      (c < v.bits.toNat → step s = .next
        { s with vars := assignVar s.vars n ⟨4 * k, Config.freeBits (4 * k) s.frees⟩, program := rest,
                 frees := s.frees + 1 })) ∧
    (∀ n k c v, line = .expect n k c → literalWf k c = true → lookupVar s.vars n = some v →
      (v.bits.toNat = c → step s = .next { s with program := rest }) ∧
      (v.bits.toNat ≠ c → step s = .refused (.expectationFailed n)))

/-- 10_state section 2 (R40): a name that was never assigned has no value, and a line that reads it stops, whatever
the place: in a transaction under any name of a command, in a `.let`, in a difference, in an `.expect`, alone, as a
slice, in a limb list or in a concatenation. Where a well-formed line begins with it, the refusal names it. -/
def Obligations.UnassignedNameStopsTheHost : Prop :=
  ∀ (s : State) (n : VarName) (line : Line) (rest : List Line),
    lookupVar s.vars n = none → s.program = line :: rest →
    (line.wf = true → line.readsFirst n = true → step s = .refused (.unassignedVariable n)) ∧
    (line.reads n = true → ∃ r, step s = .refused r)

/-- The names of 30_encoding R78 stand for the commands its table gives, the pseudo-commands by the strategy and by
the operands' width. A bare literal takes the width of its place (00_scope R11), so beside another operand it has no
part in the choice; where all operands are literals the size is the model's choice (log 14). -/
def Obligations.NamesStandForTheirCommands : Prop :=
  ∀ (strategy : Strategy) (m : VarMap) (x z : Source) (srcs : List Source) (v w : HostValue),
    x.value m = .ok v → z.value m = .ok w →
    let sized (n : Nat) := (v.width = n ∧ w.width = n) ∨
      (v.width = n ∧ x.isLiteral = false ∧ z.isLiteral = true) ∨
      (w.width = n ∧ x.isLiteral = true ∧ z.isLiteral = false)
    Mnemonic.resolve strategy m srcs .adc = .ok (if strategy = .flag then .adcF else .adcE) ∧
    (∀ n ∈ [Mnemonic.addw, Mnemonic.add, Mnemonic.addWide],
      (sized 128 → n.resolve strategy m [x, z] = .ok (if strategy = .flag then .addw4F else .addw4E)) ∧
      (sized 64 → n.resolve strategy m [x, z] = .ok (if strategy = .flag then .addw2F else .addw2E))) ∧
    (sized 32 → Mnemonic.resolve strategy m [x, z] .widenMul = .ok .wmul) ∧
    (sized 64 → Mnemonic.resolve strategy m [x, z] .widenMul = .ok .wmuld) ∧
    Mnemonic.resolve strategy m srcs .reduce = .ok .red ∧
    Mnemonic.resolve strategy m srcs .reduceProduct = .ok .red ∧
    Mnemonic.resolve strategy m srcs .canonicalize = .ok .canon ∧
    Mnemonic.resolve strategy m srcs .fieldAdd = .ok .fadd ∧
    Mnemonic.resolve strategy m srcs .fieldMul = .ok .fmul

/-- A line under a name of 30_encoding R78 runs as the same line under the command the name stands for, whichever
strategy the implementation picked; `reduce(product)` is the next statement's. -/
def Obligations.NamedLineRunsAsItsCommand : Prop :=
  ∀ (strategy : Strategy) (m : Mnemonic) (i : Instr) (dests : List Dest) (srcs : List Source) (s : State),
    m ≠ .reduceProduct → m.resolve strategy s.vars srcs = .ok i →
    runLine strategy (.txn m dests srcs) s = runLine strategy (.txn (.core i) dests srcs) s

/-- `reduce(product)` of 30_encoding R78: the 128-bit product goes to port `a` whole, and the variable receives a
representative of it. -/
def Obligations.ReduceOfAProductTakesItWhole : Prop :=
  ∀ (s : State) (d : Dest) (x : Source) (X : Nat) (rest : List Line),
    s.program = .txn .reduceProduct [d] [x] :: rest → x.wf = true → x.operand s.vars 128 = .ok X →
    ∃ t r, step s = .next t ∧ t.program = rest ∧ t.cmd = encode .red ∧ t.a.toNat = X ∧ t.b = 0 ∧ t.cin = 0#1 ∧
      r < 2 ^ 64 ∧ CongruentModP r X ∧
      (∀ n, d = some n → lookupVar t.vars n = some ⟨64, BitVec.ofNat 64 r⟩) ∧
      (∀ n, d ≠ some n → lookupVar t.vars n = lookupVar s.vars n)
end

