-- ==== Sys2Proof/Laws/Flags.lean ====
section
/-! SUPPORT. The arithmetic primitives read as natural numbers: one lemma per primitive of 00_scope R13. -/

namespace Sys2Proof.Machine

variable {k : Nat}

@[simp] theorem addK_toNat (x z : BitVec k) : (addK x z).toNat = (x.toNat + z.toNat) % 2 ^ k := by
  simp [addK]

@[simp] theorem subK_toNat (x z : BitVec k) : (subK x z).toNat = (2 ^ k - z.toNat + x.toNat) % 2 ^ k := by
  simp [subK]

@[simp] theorem ltu_toNat (x z : BitVec k) : (ltu x z).toNat = if x.toNat < z.toNat then 1 else 0 := by
  unfold ltu; split <;> rfl

theorem ltu_eq_one_iff (x z : BitVec k) : ltu x z = 1#1 ↔ x.toNat < z.toNat := by
  unfold ltu; split <;> simp_all

theorem ltu_eq_zero_iff (x z : BitVec k) : ltu x z = 0#1 ↔ z.toNat ≤ x.toNat := by
  unfold ltu; split <;> simp_all

theorem geu_eq_one_iff (x z : BitVec k) : geu x z = 1#1 ↔ z.toNat ≤ x.toNat := by
  unfold geu ltu; split <;> simp_all

@[simp] theorem gate_one (x : BitVec k) : gate 1#1 x = x := rfl

@[simp] theorem gate_zero (x : BitVec k) : gate 0#1 x = 0#k := rfl

@[simp] theorem gate_ltu_toNat (x z : BitVec k) {n : Nat} (e : BitVec n) :
    (gate (ltu x z) e).toNat = if x.toNat < z.toNat then e.toNat else 0 := by
  unfold ltu; split <;> simp [gate]

/-- A bit is 0 or 1. -/
theorem bit_cases (c : Bit) : c = 0#1 ∨ c = 1#1 := by
  revert c; decide

theorem bit_toNat_le (c : Bit) : c.toNat ≤ 1 := by
  have := c.isLt; omega

/-- A wrapping sum, without the remainder. -/
theorem addK_toNat_cases (x z : BitVec k) :
    (addK x z).toNat = if x.toNat + z.toNat < 2 ^ k then x.toNat + z.toNat else x.toNat + z.toNat - 2 ^ k := by
  have hx := x.isLt
  have hz := z.isLt
  rw [addK_toNat]
  split
  · exact Nat.mod_eq_of_lt ‹_›
  · rw [Nat.mod_eq_sub_mod (by omega), Nat.mod_eq_of_lt (by omega)]

/-- A wrapping difference, without the remainder. -/
theorem subK_toNat_cases (x z : BitVec k) :
    (subK x z).toNat = if z.toNat ≤ x.toNat then x.toNat - z.toNat else x.toNat + 2 ^ k - z.toNat := by
  have hx := x.isLt
  have hz := z.isLt
  rw [subK_toNat]
  split
  · rw [show 2 ^ k - z.toNat + x.toNat = 2 ^ k + (x.toNat - z.toNat) by omega, Nat.add_mod_left,
      Nat.mod_eq_of_lt (by omega)]
  · rw [Nat.mod_eq_of_lt (by omega)]
    omega

/-- A carry bit widened to a limb keeps its value. -/
theorem bit_setWidth_toNat (hk : 1 ≤ k) (c : Bit) : (c.setWidth k).toNat = c.toNat := by
  rw [BitVec.toNat_setWidth, Nat.mod_eq_of_lt]
  have h1 := bit_toNat_le c
  have h2 : 2 ^ 1 ≤ 2 ^ k := Nat.pow_le_pow_right (by decide) hk
  omega

/-- The OR of two bits. -/
theorem bit_or_toNat (c d : Bit) : (c ||| d).toNat = if c = 1#1 ∨ d = 1#1 then 1 else 0 := by
  revert c d; decide

end Sys2Proof.Machine
end

