-- ==== Sys2Proof/Laws/Operands.lean ====
section
/-! SUPPORT. Ports read as natural numbers (20_memory R51): slices, limbs, and the packing of limbs. -/

namespace Sys2Proof.Machine

@[simp] theorem low32_toNat (v : Bus) : (low32 v).toNat = v.toNat % 2 ^ 32 := by
  simp [low32, BitVec.extractLsb']

@[simp] theorem low64_toNat (v : Bus) : (low64 v).toNat = v.toNat % 2 ^ 64 := by
  simp [low64, BitVec.extractLsb']

@[simp] theorem high64_toNat (v : Bus) : (high64 v).toNat = v.toNat / 2 ^ 64 := by
  have := v.isLt
  simp only [high64, BitVec.extractLsb'_toNat, Nat.shiftRight_eq_div_pow]
  omega

@[simp] theorem limb_toNat (v : Bus) (i : Nat) : (limb v i).toNat = v.toNat / 2 ^ (32 * i) % 2 ^ 32 := by
  simp [limb, BitVec.extractLsb', Nat.shiftRight_eq_div_pow]

theorem zext128_toNat {k : Nat} (v : BitVec k) (h : k ≤ 128) : (zext128 v).toNat = v.toNat := by
  simp [zext128, BitVec.toNat_setWidth, Nat.mod_eq_of_lt (Nat.lt_of_lt_of_le v.isLt (Nat.pow_le_pow_right (by decide) h))]

@[simp] theorem limbsOf_two (v : Bus) : limbsOf 2 v = [limb v 0, limb v 1] := rfl

@[simp] theorem limbsOf_four (v : Bus) : limbsOf 4 v = [limb v 0, limb v 1, limb v 2, limb v 3] := rfl

@[simp] theorem wideValue_nil {k : Nat} : wideValue ([] : List (BitVec k)) = 0 := rfl

@[simp] theorem wideValue_cons {k : Nat} (l : BitVec k) (ls : List (BitVec k)) :
    wideValue (l :: ls) = l.toNat + 2 ^ k * wideValue ls := rfl

/-- A WideInt of `n` limbs stands for an integer below `2^(k*n)` (00_scope glossary). -/
theorem wideValue_lt {k : Nat} (ls : List (BitVec k)) : wideValue ls < 2 ^ (k * ls.length) := by
  induction ls with
  | nil => simp
  | cons l ls ih =>
    have hl := l.isLt
    have hk : 2 ^ (k * (ls.length + 1)) = 2 ^ k * 2 ^ (k * ls.length) := by
      rw [Nat.mul_succ, Nat.pow_add, Nat.mul_comm]
    simp only [wideValue_cons, List.length_cons, hk]
    calc l.toNat + 2 ^ k * wideValue ls < 2 ^ k + 2 ^ k * wideValue ls := by omega
      _ = 2 ^ k * (wideValue ls + 1) := by rw [Nat.mul_succ, Nat.add_comm]
      _ ≤ 2 ^ k * 2 ^ (k * ls.length) := Nat.mul_le_mul_left _ ih

@[simp] theorem packLimbs_toNat (ls : List Limb) : (packLimbs ls).toNat = wideValue ls % 2 ^ 128 := by
  simp [packLimbs]

/-- The two low limbs of a port stand for its low 64 bits. -/
theorem wideValue_limbsOf_two (v : Bus) : wideValue (limbsOf 2 v) = v.toNat % 2 ^ 64 := by
  simp; omega

/-- The four limbs of a port stand for the whole port (20_memory R51). -/
theorem wideValue_limbsOf_four (v : Bus) : wideValue (limbsOf 4 v) = v.toNat := by
  have := v.isLt
  simp; omega

/-- Packing is the inverse of cutting into limbs. -/
theorem packLimbs_limbsOf_four (v : Bus) : packLimbs (limbsOf 4 v) = v := by
  apply BitVec.eq_of_toNat_eq
  rw [packLimbs_toNat, wideValue_limbsOf_four, Nat.mod_eq_of_lt v.isLt]

end Sys2Proof.Machine
end

