-- ==== Sys2Proof/Laws/Arithmetic.lean ====
section
/-! SUPPORT. What the shared arithmetic operations (a carry chain over any limb step, the two halves of a product on
a port) say about the integers they stand for. -/

namespace Sys2Proof.Machine

/-- A chain over any exact limb step adds the integers the limb lists stand for. -/
theorem carryChain_value {k : Nat} (f : BitVec k → BitVec k → Bit → BitVec k × Bit)
    (hf : ∀ x z c, x.toNat + z.toNat + c.toNat = (f x z c).1.toNat + (f x z c).2.toNat * 2 ^ k)
    (xs zs : List (BitVec k)) (hl : xs.length = zs.length) (c : Bit) :
    (carryChain f (xs.zip zs) c).1.length = xs.length ∧
    wideValue xs + wideValue zs + c.toNat =
      wideValue (carryChain f (xs.zip zs) c).1 + (carryChain f (xs.zip zs) c).2.toNat * 2 ^ (k * xs.length) := by
  induction xs generalizing zs c with
  | nil =>
    cases zs with
    | nil => simp [carryChain]
    | cons => cases hl
  | cons x xs ih =>
    cases zs with
    | nil => cases hl
    | cons z zs =>
      obtain ⟨h1, h2⟩ := ih zs (by simpa using hl) (f x z c).2
      have hs := hf x z c
      simp only [List.zip_cons_cons, carryChain, List.length_cons, wideValue_cons, h1, true_and]
      have e : 2 ^ (k * (xs.length + 1)) = 2 ^ k * 2 ^ (k * xs.length) := by
        rw [Nat.mul_succ, Nat.pow_add, Nat.mul_comm]
      rw [e]
      linear_combination hs + 2 ^ k * h2

/-- The pair of halves on a port, low half in the low bits, is the integer it stands for. -/
theorem joinPair_toNat {k : Nat} (p : BitVec k × BitVec k) : (joinPair p).toNat = p.1.toNat + p.2.toNat * 2 ^ k := by
  have h := p.1.isLt
  simp only [joinPair, BitVec.toNat_append]
  rw [← Nat.shiftLeft_add_eq_or_of_lt h, Nat.shiftLeft_eq, Nat.add_comm]

end Sys2Proof.Machine
end

