-- ==== Sys2Proof/Laws/State.lean ====
section
/-! SUPPORT. One lemma per field of State for each update the model makes, so that no proof unfolds a record. -/

namespace Sys2Proof.Machine

section Drive
variable (s : State) (cmd : Cmd) (a b : Bus) (cin : Bit)

@[simp] theorem State.drive_cmd : (s.drive cmd a b cin).cmd = cmd := rfl
@[simp] theorem State.drive_a : (s.drive cmd a b cin).a = a := rfl
@[simp] theorem State.drive_b : (s.drive cmd a b cin).b = b := rfl
@[simp] theorem State.drive_cin : (s.drive cmd a b cin).cin = cin := rfl
@[simp] theorem State.drive_y : (s.drive cmd a b cin).y = s.y := rfl
@[simp] theorem State.drive_cout : (s.drive cmd a b cin).cout = s.cout := rfl
@[simp] theorem State.drive_vars : (s.drive cmd a b cin).vars = s.vars := rfl
@[simp] theorem State.drive_program : (s.drive cmd a b cin).program = s.program := rfl
@[simp] theorem State.drive_frees : (s.drive cmd a b cin).frees = s.frees := rfl

end Drive

section Present
variable (s : State) (t : Issue)

@[simp] theorem State.present_cmd : (s.present t).cmd = t.cmd := rfl
@[simp] theorem State.present_a : (s.present t).a = t.a := rfl
@[simp] theorem State.present_b : (s.present t).b = t.b := rfl
@[simp] theorem State.present_cin : (s.present t).cin = t.cin := rfl
@[simp] theorem State.present_y : (s.present t).y = s.y := rfl
@[simp] theorem State.present_cout : (s.present t).cout = s.cout := rfl
@[simp] theorem State.present_vars : (s.present t).vars = s.vars := rfl
@[simp] theorem State.present_program : (s.present t).program = s.program := rfl
@[simp] theorem State.present_frees : (s.present t).frees = s.frees := rfl

end Present

section CopyOut
variable (s : State) (copies : List (Dest × OutField))

@[simp] theorem State.copyOut_cmd : (s.copyOut copies).cmd = s.cmd := rfl
@[simp] theorem State.copyOut_a : (s.copyOut copies).a = s.a := rfl
@[simp] theorem State.copyOut_b : (s.copyOut copies).b = s.b := rfl
@[simp] theorem State.copyOut_cin : (s.copyOut copies).cin = s.cin := rfl
@[simp] theorem State.copyOut_y : (s.copyOut copies).y = s.y := rfl
@[simp] theorem State.copyOut_cout : (s.copyOut copies).cout = s.cout := rfl
@[simp] theorem State.copyOut_program : (s.copyOut copies).program = s.program := rfl
@[simp] theorem State.copyOut_frees : (s.copyOut copies).frees = s.frees := rfl
@[simp] theorem State.copyOut_nil : s.copyOut [] = s := rfl

end CopyOut

section AssignFree
variable (s : State) (n : VarName) (w : Nat)

@[simp] theorem State.assignFree_cmd : (s.assignFree n w).cmd = s.cmd := rfl
@[simp] theorem State.assignFree_a : (s.assignFree n w).a = s.a := rfl
@[simp] theorem State.assignFree_b : (s.assignFree n w).b = s.b := rfl
@[simp] theorem State.assignFree_cin : (s.assignFree n w).cin = s.cin := rfl
@[simp] theorem State.assignFree_y : (s.assignFree n w).y = s.y := rfl
@[simp] theorem State.assignFree_cout : (s.assignFree n w).cout = s.cout := rfl
@[simp] theorem State.assignFree_vars :
    (s.assignFree n w).vars = assignVar s.vars n ⟨w, Config.freeBits w s.frees⟩ := rfl
@[simp] theorem State.assignFree_program : (s.assignFree n w).program = s.program := rfl
@[simp] theorem State.assignFree_frees : (s.assignFree n w).frees = s.frees + 1 := rfl

end AssignFree

/-- An answer drives the two output ports and touches nothing else. -/
theorem State.answer_eq (s : State) (y : Bus) (cout : Bit) :
    s.answer y cout = .next { s with y := y, cout := cout } := rfl

/-- What an answer can be. -/
theorem State.answer_next {s t : State} {y : Bus} {cout : Bit} (h : s.answer y cout = .next t) :
    t = { s with y := y, cout := cout } := by
  cases h; rfl

end Sys2Proof.Machine
end

