-- ==== Sys2Proof/Laws/HostSide.lean ====
section
/-! SUPPORT. The host's map (read after write, canonical form) and what a host line can do. -/

namespace Sys2Proof.Machine

/-- Reading the name just assigned. -/
@[simp] theorem lookupVar_assignVar_same (m : VarMap) (n : VarName) (v : HostValue) :
    lookupVar (assignVar m n v) n = some v := by
  induction m with
  | nil => simp [assignVar, lookupVar]
  | cons p rest ih =>
    obtain ⟨m, w⟩ := p
    simp only [assignVar]
    split
    · simp [lookupVar]
    · split
      · simp [lookupVar]
      · rename_i _ h
        simp [lookupVar, Ne.symm h, ih]

/-- Reading any other name. -/
theorem lookupVar_assignVar_other (m : VarMap) {n n' : VarName} (v : HostValue) (h : n' ≠ n) :
    lookupVar (assignVar m n v) n' = lookupVar m n' := by
  induction m with
  | nil => simp [assignVar, lookupVar, h.symm]
  | cons p rest ih =>
    obtain ⟨m, w⟩ := p
    simp only [assignVar]
    split
    · simp [lookupVar, h.symm]
    · split
      · rename_i _ e
        subst e
        simp [lookupVar, h.symm]
      · simp [lookupVar, ih]

/-- All names of a map lie above `n`. -/
def varsAbove (n : VarName) (m : VarMap) : Bool := m.all (fun p => decide (n < p.1))

theorem varsWf_cons (p : VarName × HostValue) (m : VarMap) :
    varsWf (p :: m) = true ↔ varsAbove p.1 m = true ∧ varsWf m = true := by
  induction m generalizing p with
  | nil => simp [varsWf, varsAbove]
  | cons q rest ih =>
    obtain ⟨n, w⟩ := q
    have hq := ih (n, w)
    simp only [varsWf, Bool.and_eq_true, decide_eq_true_eq, hq, varsAbove, List.all_cons, List.all_eq_true]
    constructor
    · rintro ⟨h1, h2, h3⟩
      exact ⟨⟨h1, fun x hx => Nat.lt_trans h1 (h2 x hx)⟩, h2, h3⟩
    · rintro ⟨⟨h1, -⟩, h2, h3⟩
      exact ⟨h1, h2, h3⟩

theorem varsAbove_assignVar {l n : VarName} {m : VarMap} (v : HostValue) (hm : varsAbove l m = true) (h : l < n) :
    varsAbove l (assignVar m n v) = true := by
  induction m with
  | nil => simp [assignVar, varsAbove, h]
  | cons p rest ih =>
    obtain ⟨m, w⟩ := p
    simp only [varsAbove, List.all_cons, Bool.and_eq_true, decide_eq_true_eq] at hm
    have hrest := ih hm.2
    simp only [varsAbove] at hrest
    simp only [assignVar]
    split
    · simp [varsAbove, h, hm.1, hm.2]
    · split
      · simp [varsAbove, h, hm.2]
      · simp [varsAbove, hm.1, hrest]

/-- Assigning a variable keeps the canonical form. -/
theorem varsWf_assignVar {m : VarMap} (n : VarName) (v : HostValue) (hm : varsWf m = true) :
    varsWf (assignVar m n v) = true := by
  induction m with
  | nil => simp [assignVar, varsWf]
  | cons p rest ih =>
    obtain ⟨m, w⟩ := p
    rw [varsWf_cons] at hm
    simp only [assignVar]
    split
    · rename_i h
      rw [varsWf_cons, varsWf_cons]
      refine ⟨?_, hm⟩
      have hall := hm.1
      simp only [varsAbove, List.all_cons, Bool.and_eq_true, decide_eq_true_eq, List.all_eq_true] at hall ⊢
      exact ⟨h, fun x hx => Nat.lt_trans h (hall x hx)⟩
    · split
      · rename_i _ e
        subst e
        exact (varsWf_cons _ _).2 hm
      · rename_i h1 h2
        rw [varsWf_cons]
        exact ⟨varsAbove_assignVar v hm.1 (Nat.lt_of_le_of_ne (Nat.le_of_not_lt h1) (Ne.symm h2)), ih hm.2⟩

/-- Copying an answer into the host's variables keeps the canonical form. -/
theorem varsWf_copyOut {s : State} (copies : List (Dest × OutField)) (h : varsWf s.vars = true) :
    varsWf (s.copyOut copies).vars = true := by
  have key : ∀ (l : List (Dest × OutField)) (m : VarMap), varsWf m = true →
      varsWf (l.foldl (fun m c => match c.1 with
        | some n => assignVar m n (c.2.read s)
        | none => m) m) = true := by
    intro l
    induction l with
    | nil => exact fun _ hm => hm
    | cons c l ih =>
      intro m hm
      simp only [List.foldl_cons]
      apply ih
      split
      · exact varsWf_assignVar _ _ hm
      · exact hm
  exact key copies s.vars h

/-- An operand that evaluates fits the width of its place. -/
theorem Source.operand_lt {m : VarMap} {w v : Nat} {src : Source} (h : src.operand m w = .ok v) : v < 2 ^ w := by
  unfold Source.operand at h
  split at h
  · unfold literalAt at h
    split at h
    · cases h; assumption
    · cases h
  all_goals
    split at h
    · cases h
    · split at h
      · rename_i _ val _ hw
        cases h
        exact hw ▸ val.bits.isLt
      · cases h

/-- What a directive's change of the host's map can be. -/
theorem Line.act_direct {strategy : Strategy} {m m' : VarMap} {line : Line}
    (h : line.act strategy m = .ok (.direct m')) : m' = m ∨ ∃ n v, m' = assignVar m n v := by
  unfold Line.act at h
  split at h
  · split at h
    · cases h
    · rename_i mn dests srcs _
      cases e : issueLine strategy m mn dests srcs <;> simp [e, Except.map] at h
    · rename_i name src _
      cases e : src.value m <;> simp [e, Except.map] at h
      exact .inr ⟨_, _, h.symm⟩
    · rename_i name digits value src _
      cases e : differenceOf m digits value src with
      | error r => simp [e, Except.map] at h
      | ok d => cases d <;> simp [e, Except.map, assignDifference] at h; exact .inr ⟨_, _, h.symm⟩
    · split at h
      · cases h
      · split at h
        · cases h; exact .inl rfl
        · cases h
  · cases h

/-- Every assembled line carries its command's code. -/
@[simp] theorem issueOf_cmd (i : Instr) (ops : List Nat) (dests : List Dest) :
    (issueOf i ops dests).cmd = encode i := by
  cases i <;> rfl

/-- What copying one output leaves. -/
theorem copyOut_one (s : State) (d : Dest) (f : OutField) :
    let m := (s.copyOut [(d, f)]).vars
    (∀ n, d = some n → lookupVar m n = some (f.read s)) ∧
    (∀ n, d ≠ some n → lookupVar m n = lookupVar s.vars n) := by
  cases d with
  | none => simp [State.copyOut]
  | some q =>
    refine ⟨fun n hn => by cases hn; simp [State.copyOut], fun n hn => ?_⟩
    simp only [State.copyOut, List.foldl_cons, List.foldl_nil]
    exact lookupVar_assignVar_other _ _ (fun e => hn (by rw [e]))

/-- What copying two outputs leaves, for destinations that do not name one variable twice. -/
theorem copyOut_two (s : State) (d e : Dest) (f g : OutField) (h : destsWf [d, e] = true) :
    let m := (s.copyOut [(d, f), (e, g)]).vars
    (∀ n, d = some n → lookupVar m n = some (f.read s)) ∧ (∀ n, e = some n → lookupVar m n = some (g.read s)) ∧
    (∀ n, d ≠ some n → e ≠ some n → lookupVar m n = lookupVar s.vars n) := by
  have hde : ∀ n, d = some n → e ≠ some n := by
    rintro n rfl rfl
    simp [destsWf] at h
  obtain ⟨h1, h2⟩ := copyOut_one s d f
  cases e with
  | none => exact ⟨h1, nofun, fun n hn _ => h2 n hn⟩
  | some q =>
    have hs : (s.copyOut [(d, f), (some q, g)]).vars = assignVar (s.copyOut [(d, f)]).vars q (g.read s) := rfl
    rw [hs]
    refine ⟨fun n hn => ?_, fun n hn => by cases hn; simp, fun n hn hq => ?_⟩
    · rw [lookupVar_assignVar_other _ _ (fun e => hde n hn (by rw [e]))]
      exact h1 n hn
    · rw [lookupVar_assignVar_other _ _ (fun e => hq (by rw [e]))]
      exact h2 n hn

end Sys2Proof.Machine
end

