-- ==== Sys2Proof/Laws/PerInstr.lean ====
section
/-! SUPPORT. The per-command family RoundTrip: the code of a command decodes to it (30_encoding R74). -/

namespace Sys2Proof.Laws.RoundTrip

/-- The command's code decodes to the command. -/
def Statement (i : Instr) : Prop := decode (encode i) = .ok i

theorem adcF : Statement .adcF := rfl
theorem adcE : Statement .adcE := rfl
theorem addw2F : Statement .addw2F := rfl
theorem addw2E : Statement .addw2E := rfl
theorem addw4F : Statement .addw4F := rfl
theorem addw4E : Statement .addw4E := rfl
theorem wmul : Statement .wmul := rfl
theorem wmuld : Statement .wmuld := rfl
theorem red : Statement .red := rfl
theorem canon : Statement .canon := rfl
theorem fadd : Statement .fadd := rfl
theorem fmul : Statement .fmul := rfl

end Sys2Proof.Laws.RoundTrip
end

