-- ==== Sys2Proof/Laws/Step.lean ====
section
/-! SUPPORT. What `exec`, a transaction and a step can do, once for all. -/

namespace Sys2Proof.Machine

/-- The shape of every command: it answers, with some values of the two outputs. -/
theorem exec_answers (i : Instr) (s : State) : ∃ y cout, exec i s = s.answer y cout := by
  cases i <;> exact ⟨_, _, rfl⟩

/-- A command's answer depends on the three operand ports only. -/
theorem exec_congr (i : Instr) {s t : State} (ha : s.a = t.a) (hb : s.b = t.b) (hc : s.cin = t.cin) :
    ∃ y cout, exec i s = s.answer y cout ∧ exec i t = t.answer y cout := by
  cases i <;>
    simp only [exec, execAdcF, execAdcE, execAddw2F, execAddw2E, execAddw4F, execAddw4E, execWmul, execWmuld,
      execRed, execCanon, execFadd, execFmul, ha, hb, hc] <;>
    exact ⟨_, _, rfl, rfl⟩

@[simp] theorem step_nil {s : State} (h : s.program = []) : step s = .refused .nothingPresented := by
  simp [step, h]

theorem step_cons {s : State} {line : Line} {rest : List Line} (h : s.program = line :: rest) :
    step s = runLine Config.addWideStrategy line { s with program := rest } := by
  simp [step, h]

@[simp] theorem decode_encode_code (i : Instr) : decode (encode i) = .ok i := by
  cases i <;> rfl

/-- A transaction whose code is a command's. -/
theorem transact_ok {t : Issue} {i : Instr} (s : State) (h : decode t.cmd = .ok i) :
    transact t s = finish t.copies (exec i (s.present t)) := by
  simp [transact, h]

/-- What a step that goes on can have been: a directive, an assignment of a free value, or a transaction answered
and copied out. -/
theorem step_next {s s' : State} (h : step s = .next s') :
    ∃ line rest, s.program = line :: rest ∧
      ((∃ m, line.act Config.addWideStrategy s.vars = .ok (.direct m) ∧
          s' = { s with program := rest, vars := m }) ∨
       (∃ n w, line.act Config.addWideStrategy s.vars = .ok (.assignFree n w) ∧
          s' = ({ s with program := rest } : State).assignFree n w) ∨
       (∃ t i y cout, line.act Config.addWideStrategy s.vars = .ok (.issue t) ∧ decode t.cmd = .ok i ∧
          exec i (({ s with program := rest } : State).present t) =
            (({ s with program := rest } : State).present t).answer y cout ∧
          s' = ({ ({ s with program := rest } : State).present t with y := y, cout := cout } : State).copyOut
            t.copies)) := by
  cases hp : s.program with
  | nil => simp [hp] at h
  | cons line rest =>
    refine ⟨line, rest, rfl, ?_⟩
    rw [step_cons hp] at h
    simp only [runLine] at h
    split at h
    · cases h
    · cases h
      exact .inl ⟨_, by assumption, rfl⟩
    · cases h
      exact .inr (.inl ⟨_, _, by assumption, rfl⟩)
    · rename_i t ht
      cases hd : decode t.cmd with
      | error e => cases e; simp [transact, hd] at h
      | ok i =>
        obtain ⟨y, cout, he⟩ := exec_answers i (({ s with program := rest } : State).present t)
        rw [transact_ok _ hd, he] at h
        cases h
        exact .inr (.inr ⟨t, i, y, cout, ht, hd, he, rfl⟩)

@[simp] theorem finish_nil (r : Result) : finish [] r = r := by
  cases r <;> rfl

/-- A well-formed line under a core command, whose operands evaluate, runs that command and copies its answer. -/
theorem step_core_line {s t : State} {i : Instr} {dests : List Dest} {srcs : List Source} {ops : List Nat}
    {rest : List Line} (hp : s.program = .txn (.core i) dests srcs :: rest)
    (hw : Line.wf (.txn (.core i) dests srcs) = true)
    (ho : operandValues s.vars (sourceWidths i) srcs = .ok ops)
    (he : exec i (({ s with program := rest } : State).present (issueOf i ops dests)) = .next t) :
    step s = .next (t.copyOut (issueOf i ops dests).copies) := by
  have ha : (Line.txn (.core i) dests srcs).act Config.addWideStrategy s.vars =
      .ok (.issue (issueOf i ops dests)) := by
    simp [Line.act, hw, issueLine, Mnemonic.resolve, Mnemonic.sourceWidths, ho, Except.map]
  have hd : decode (issueOf i ops dests).cmd = .ok i := by simp
  rw [step_cons hp]
  simp only [runLine, ha]
  rw [transact_ok _ hd, he]
  rfl

end Sys2Proof.Machine
end

