-- ==== Sys2Proof/Tests/Slice0.lean ====
section
/-! SUPPORT. The model's own tests: well-formedness, decoding of words written out from 30_encoding R74, at most
two vectors of 95_test_vectors per command (each named in its theorem), host lines, and for every statement with
hypotheses a state and operands that meet them. -/

namespace Sys2Proof.Tests

open Sys2Proof.Machine

/-! ## Well-formedness (30_encoding R77): each check refuses an ill-formed term -/

theorem wf_every_command : [Instr.adcF, .adcE, .addw2F, .addw2E, .addw4F, .addw4E, .wmul, .wmuld, .red, .canon,
    .fadd, .fmul].all Instr.wf = true := by decide

theorem wf_refuses_literal_without_digits : literalWf 0 0 = false := by decide
theorem wf_refuses_literal_above_its_digits : literalWf 2 0x100 = false ∧ literalWf 2 0xFF = true := by decide
theorem wf_refuses_upside_down_slice : Atom.wf (.slice 0 3 4) = false ∧ Atom.wf (.slice 0 4 4) = true := by decide
theorem wf_refuses_empty_limb_list : Source.wf (.limbs []) = false := by decide
theorem wf_refuses_bad_limb : Source.wf (.limbs [.literal 8 0, .literal 1 0x10]) = false := by decide
theorem wf_refuses_one_part_concatenation : Source.wf (.concat [.var 0]) = false := by decide
theorem wf_refuses_bad_part : Source.wf (.concat [.var 0, .slice 1 0 1]) = false := by decide
theorem wf_refuses_bad_source : Source.wf (.atom (.literal 0 0)) = false := by decide
theorem wf_refuses_duplicate_destination :
    destsWf [some 7, some 7] = false ∧ destsWf [none, none] = true := by decide

theorem wf_refuses_wrong_number_of_destinations :
    Line.wf (.txn (.core .fadd) [some 0, some 1] [.atom (.var 0), .atom (.var 1)]) = false := by decide
theorem wf_refuses_wrong_number_of_sources :
    Line.wf (.txn (.core .adcF) [some 0, some 1] [.atom (.var 0), .atom (.var 1)]) = false := by decide
theorem wf_refuses_line_with_duplicate_destination :
    Line.wf (.txn (.core .wmul) [some 0, some 0] [.atom (.var 0), .atom (.var 1)]) = false := by decide
theorem wf_refuses_line_with_bad_source :
    Line.wf (.txn (.core .canon) [some 0] [.limbs []]) = false := by decide
theorem wf_refuses_bad_let : Line.wf (.letVar 0 (.limbs [])) = false := by decide
theorem wf_refuses_bad_difference :
    Line.wf (.letDiff 0 1 0x10 (.atom (.var 1))) = false ∧ Line.wf (.letDiff 0 2 0x10 (.limbs [])) = false := by decide
theorem wf_refuses_bad_expect : Line.wf (.expect 0 1 0x10) = false := by decide

/-! ## Decoding: the words of 30_encoding R74, bit by bit -/

theorem decode_adcF : decode 0b0000#4 = .ok .adcF := by decide
theorem decode_adcE : decode 0b0001#4 = .ok .adcE := by decide
theorem decode_addw2F : decode 0b0010#4 = .ok .addw2F := by decide
theorem decode_addw2E : decode 0b0011#4 = .ok .addw2E := by decide
theorem decode_addw4F : decode 0b0100#4 = .ok .addw4F := by decide
theorem decode_addw4E : decode 0b0101#4 = .ok .addw4E := by decide
theorem decode_wmul : decode 0b0110#4 = .ok .wmul := by decide
theorem decode_wmuld : decode 0b0111#4 = .ok .wmuld := by decide
theorem decode_red : decode 0b1000#4 = .ok .red := by decide
theorem decode_canon : decode 0b1001#4 = .ok .canon := by decide
theorem decode_fadd : decode 0b1010#4 = .ok .fadd := by decide
theorem decode_fmul : decode 0b1011#4 = .ok .fmul := by decide

theorem decode_refuses_reserved : decode 0b1100#4 = .error (.reservedCode 0b1100#4) ∧
    decode 0b1101#4 = .error (.reservedCode 0b1101#4) ∧ decode 0b1110#4 = .error (.reservedCode 0b1110#4) ∧
    decode 0b1111#4 = .error (.reservedCode 0b1111#4) := by decide

theorem decode_rows_do_not_overlap :
    opcodeRows.Pairwise (fun r q => ∀ c : Cmd, ¬ (r.selects c = true ∧ q.selects c = true)) := by decide

theorem decode_table_word : decodeTableWord 8 0x0B = some .fmul ∧ decodeTableWord 4 0x9 = some .canon ∧
    decodeTableWord 8 0x0C = none := by decide

/-! ## Commands: vectors of 95_test_vectors, one transaction each -/

/-- The block's answer to four inputs. -/
def answers (cmd : Cmd) (a b : Bus) (cin : Bit) (y : Bus) (cout : Bit) : Bool :=
  decide (blockFunction cmd a b cin = .ok (y, cout))

theorem test_A5 : answers 0x0#4 0xFFFFFFFF#128 0xFFFFFFFF#128 1#1 0xFFFFFFFF#128 1#1 = true := by decide
theorem test_Z1 : answers 0x0#4 0xDEADBEEF0123456789ABCDEFFFFFFFFF#128 0xFFFFFFFFFFFFFFFFFFFFFFFF00000000#128 1#1
    0x00000000000000000000000000000000#128 1#1 = true := by decide
theorem test_A12 : answers 0x1#4 0x00000000#128 0xFFFFFFFF#128 1#1 0x00000000#128 1#1 = true := by decide
theorem test_A5_emulated : answers 0x1#4 0xFFFFFFFF#128 0xFFFFFFFF#128 1#1 0xFFFFFFFF#128 1#1 = true := by decide
theorem test_W5 : answers 0x2#4 0xFFFFFFFF00000001#128 0xFFFFFFFEFFFFFFFF#128 0#1
    0xFFFFFFFE00000000#128 1#1 = true := by decide
theorem test_Z3 : answers 0x2#4 0xAAAAAAAAAAAAAAAAFFFFFFFFFFFFFFFF#128 0x55555555555555550000000000000001#128 1#1
    0x0#128 1#1 = true := by decide
theorem test_W6_emulated : answers 0x3#4 0xFFFFFFFF00000001#128 0xFFFFFFFF00000000#128 0#1
    0xFFFFFFFE00000001#128 1#1 = true := by decide
theorem test_Z4 : answers 0x3#4 0xAAAAAAAAAAAAAAAAFFFFFFFFFFFFFFFF#128 0x55555555555555550000000000000001#128 1#1
    0x0#128 1#1 = true := by decide
theorem test_W16 : answers 0x4#4 0x00000000FFFFFFFFFFFFFFFEFFFFFFFF#128 0x00000000000000000000000100000001#128 0#1
    0x00000001000000000000000000000000#128 0#1 = true := by decide
theorem test_Z5 : answers 0x4#4 0x000000000000000000000000FFFFFFFF#128 0x00000000000000000000000000000001#128 1#1
    0x00000000000000000000000100000000#128 0#1 = true := by decide
theorem test_W19_emulated : answers 0x5#4 0xFFFFFFFFFFFFFFFFFFFFFFFF00000000#128
    0x00000000000000000000000100000000#128 0#1 0x0#128 1#1 = true := by decide
theorem test_Z6 : answers 0x5#4 0x000000000000000000000000FFFFFFFF#128 0x00000000000000000000000000000001#128 1#1
    0x00000000000000000000000100000000#128 0#1 = true := by decide
theorem test_U13 : answers 0x6#4 0xC000C000#128 0xC000C000#128 0#1 0x9001200090000000#128 0#1 = true := by decide
theorem test_Z7 : answers 0x6#4 0xFFFFFFFFFFFFFFFFFFFFFFFFFFFFFFFF#128 0x123456789ABCDEF0FFFFFFFFFFFFFFFF#128 1#1
    0x0000000000000000FFFFFFFE00000001#128 0#1 = true := by decide
theorem test_V7 : answers 0x7#4 0x0123456789ABCDEF#128 0xFEDCBA9876543210#128 0#1
    0x0121FA00AD77D7422236D88FE5618CF0#128 0#1 = true := by decide
theorem test_Z8 : answers 0x7#4 0x7777777777777777FFFFFFFFFFFFFFFF#128 0x8888888888888888FFFFFFFFFFFFFFFF#128 1#1
    0xFFFFFFFFFFFFFFFE0000000000000001#128 0#1 = true := by decide
theorem test_G24 : answers 0x8#4 0x8B529B4A97B75092000000003CEB3FFD#128 0#128 0#1
    0x97B7509119E15421#128 0#1 = true := by decide
theorem test_Z9 : answers 0x8#4 0x00000000000000010000000000000000#128 0xFFFFFFFFFFFFFFFFFFFFFFFFFFFFFFFF#128 1#1
    0x000000000000000000000000FFFFFFFF#128 0#1 = true := by decide
theorem test_Q10 : answers 0x9#4 0xFFFFFFFEFFFFFFFF#128 0#128 0#1 0xFFFFFFFEFFFFFFFF#128 0#1 = true := by decide
theorem test_Z10 : answers 0x9#4 0x1234567800000000FFFFFFFF00000001#128 0xFFFFFFFFFFFFFFFFFFFFFFFFFFFFFFFF#128 1#1
    0x0#128 0#1 = true := by decide
theorem test_F12 : answers 0xA#4 0xFFFFFFFF00000006#128 0xFFFFFFFFFFFFFFFC#128 0#1
    0x0000000100000000#128 0#1 = true := by decide
theorem test_Z11 : answers 0xA#4 0xFFFFFFFFFFFFFFFFFFFFFFFFFFFFFFFF#128 0xFFFFFFFFFFFFFFFFFFFFFFFFFFFFFFFF#128 1#1
    0x000000000000000000000001FFFFFFFC#128 0#1 = true := by decide
theorem test_M4 : answers 0xB#4 0xFFFFFFFF00000000#128 0xFFFFFFFF00000000#128 0#1
    0xFFFFFFFF00000002#128 0#1 = true := by decide
theorem test_M10 : answers 0xB#4 0x0123456789ABCDEF#128 0xFEDCBA9876543210#128 0#1
    0xCFAEAFD136C7BBAE#128 0#1 = true := by decide

/-- The wires of A14 and of G11 and F7 (the columns of 95_test_vectors). -/
theorem test_A14_wires : adcWires 0xDEADBEEF#32 0x21524110#32 1#1 = ⟨0xFFFFFFFF#32, 0#1, 0#32, 1#1⟩ := by decide
theorem test_U4_wires : halfProducts 0xFFFFFFFF#32 0xFFFFFFFF#32 =
    ⟨0xFFFE0001#32, 0xFFFE0001#32, 0xFFFE0001#32, 0xFFFE0001#32⟩ ∧
    (accumulate (halfProducts 0xFFFFFFFF#32 0xFFFFFFFF#32)).cross = 0xFFFC0002#32 := by decide
theorem test_G11_wires : redWires 0#64 0xFFFFFFFFFFFFFFFF#64 =
    ⟨0xFFFFFFFF00000001#64, 1#1, 0xFFFFFFFE00000002#64, 0xFFFFFFFE00000001#64, 0xFFFFFFFC00000003#64, 1#1,
      0xFFFFFFFD00000002#64⟩ := by decide
theorem test_F7_wires : faddWires 0xFFFFFFFFFFFFFFFF#64 0xFFFFFFFFFFFFFFFF#64 =
    ⟨0xFFFFFFFFFFFFFFFE#64, 1#1, 0x00000000FFFFFFFD#64, 1#1, 0x00000001FFFFFFFC#64⟩ := by decide

/-! ## Host lines: one step of the programs of 95_test_vectors part 3 -/

/-- A state with the given variables and one line to issue. -/
def withLine (vars : VarMap) (line : Line) : State := { State.reset with vars := vars, program := [line] }

/-- The variables a step leaves, if it goes on. -/
def varsAfter (s : State) : Option VarMap :=
  match step s with
  | .next t => some t.vars
  | .refused _ => none

/-- Why a step stops, if it does. -/
def refusalOf (s : State) : Option Refusal :=
  match step s with
  | .next _ => none
  | .refused r => some r

/-- A 64-bit variable. -/
def v64 (x : DWord) : HostValue := ⟨64, x⟩

/-- Transaction 1 of program P2: `RED r, lo, hi`. -/
theorem test_P2_red_line :
    varsAfter (withLine [(1, v64 0), (2, v64 0xFFFFFFFE00000001)]
      (.txn (.core .red) [some 3] [.atom (.var 1), .atom (.var 2)])) =
      some [(1, v64 0), (2, v64 0xFFFFFFFE00000001), (3, v64 0xFFFFFFFF00000002)] := by decide

/-- The host's subtraction of program P3. -/
theorem test_P3_difference :
    varsAfter (withLine [(3, v64 0x00000000FFFFFFFE)] (.letDiff 4 16 0xFFFFFFFF00000001 (.atom (.var 3)))) =
      some [(3, v64 0x00000000FFFFFFFE), (4, v64 0xFFFFFFFE00000003)] := by decide

/-- Transaction 2 of program P4: a limb list with a one-bit carry in limb 0. -/
theorem test_P4_limb_list :
    varsAfter (withLine [(3, ⟨1, 1#1⟩), (4, ⟨128, 0x000000000000000000000000FFFFFFFF#128⟩)]
      (.txn (.core .addw4F) [some 6, some 7] [.atom (.var 4), .limbs [.var 3, .literal 1 0, .literal 1 0, .literal 1 0]])) =
      some [(3, ⟨1, 1#1⟩), (4, ⟨128, 0x000000000000000000000000FFFFFFFF#128⟩),
        (6, ⟨128, 0x00000000000000000000000100000000#128⟩), (7, ⟨1, 0#1⟩)] := by decide

/-- Transaction 5 of program P5: concatenations, a slice and a literal of eight digits. -/
theorem test_P5_concatenation :
    varsAfter (withLine [(10, ⟨32, 0xE5618CF0#32⟩), (11, ⟨32, 0x3FA27837#32⟩), (20, v64 0x8995CC19E2946058)]
      (.txn (.core .addw2E) [some 22, some 23] [.concat [.var 11, .var 10], .concat [.slice 20 31 0, .literal 8 0]])) =
      some [(10, ⟨32, 0xE5618CF0#32⟩), (11, ⟨32, 0x3FA27837#32⟩), (20, v64 0x8995CC19E2946058),
        (22, v64 0x2236D88FE5618CF0), (23, ⟨1, 1#1⟩)] := by decide

theorem test_host_stops_by_name :
    refusalOf (withLine [] (.letVar 0 (.atom (.var 1)))) = some (.unassignedVariable 1) ∧
    refusalOf (withLine [(1, ⟨8, 0#8⟩)] (.txn (.core .canon) [none] [.atom (.var 1)])) = some (.widthMismatch 64 8) ∧
    refusalOf (withLine [] (.txn (.core .canon) [none] [.atom (.literal 17 0x10000000000000000)])) =
      some (.literalTooWide 64) ∧
    refusalOf (withLine [(1, ⟨8, 0#8⟩)] (.letVar 0 (.atom (.slice 1 8 0)))) = some (.sliceOutOfRange 1 8) ∧
    refusalOf (withLine [(1, ⟨8, 0#8⟩)] (.txn .addw [none, none] [.atom (.var 1), .atom (.var 1)])) =
      some .noSuchSize ∧
    refusalOf (withLine [(1, ⟨8, 2#8⟩)] (.expect 1 2 3)) = some (.expectationFailed 1) ∧
    refusalOf (withLine [] (.letVar 0 (.limbs []))) = some .illFormedLine := by decide

/-- The literal subtraction of X7, `p - m` for `m` above `P`: the run goes on, and the value is free. -/
theorem test_X7_negative_difference_goes_on :
    let s := withLine [(3, v64 0xFFFFFFFFFFFFFFFF)] (.letDiff 4 16 0xFFFFFFFF00000001 (.atom (.var 3)))
    ∃ t, step s = .next t ∧ t.vars.map Prod.fst = [3, 4] ∧ lookupVar t.vars 3 = some (v64 0xFFFFFFFFFFFFFFFF) ∧
      (lookupVar t.vars 4).map HostValue.width = some 64 ∧ t.program = [] := ⟨_, rfl, rfl, rfl, rfl, rfl⟩

/-- A literal takes the width of its place, however many digits it has (00_scope R11). -/
theorem test_literal_has_no_part_in_the_size :
    varsAfter (withLine [(1, ⟨32, 0x00010000#32⟩)]
      (.txn .widenMul [some 2, some 3] [.atom (.var 1), .atom (.literal 16 0x00010000)])) =
      some [(1, ⟨32, 0x00010000#32⟩), (2, ⟨32, 0#32⟩), (3, ⟨32, 1#32⟩)] := by decide

/-- The same name resolves to the same size under either strategy (30_encoding R78). -/
theorem test_names_resolve :
    Mnemonic.resolve .flag [(1, v64 0)] [.atom (.var 1), .atom (.var 1)] .addw = .ok .addw2F ∧
    Mnemonic.resolve .emul [(1, v64 0)] [.atom (.var 1), .atom (.var 1)] .addWide = .ok .addw2E ∧
    Mnemonic.resolve .emul [] [] .adc = .ok .adcE ∧
    Mnemonic.resolve .flag [(1, v64 0)] [.atom (.var 1), .atom (.var 1)] .widenMul = .ok .wmuld := by decide

theorem test_placed_word_is_fetched :
    ((State.reset.withFetchWord 8 0x0B).program) = [.present 0xB#4 0#128 0#128 0#1] ∧
    varsAfter (State.reset.withFetchWord 8 0x0B) = some [] ∧
    refusalOf (State.reset.withFetchWord 8 0x0D) = some (.reservedCommand 0xD#4) ∧
    refusalOf State.reset = some .nothingPresented := by decide

/-! ## Witnesses: for every statement with hypotheses, a state and operands that meet them -/

/-- A state whose host presents one transaction, and then nothing. -/
def presenting (c : Cmd) (a b : Bus) (cin : Bit) : State := withLine [] (.present c a b cin)

theorem witness_DecodeAndEncodeAgree : Instr.wf .fmul = true ∧ decode 0xB#4 = .ok .fmul ∧ decode 0x0#4 = .ok .adcF := by
  decide
theorem witness_ReservedCodesAreRefused : 0xC ≤ (0xC#4 : Cmd).toNat ∧ 0xC ≤ (0xF#4 : Cmd).toNat ∧
    ¬ 0xC ≤ (0xB#4 : Cmd).toNat := by decide
theorem witness_StepRunsThePresentedCommand :
    (presenting 0xB#4 0x0000000100000000#128 0x0000000100000000#128 0#1).program =
      .present 0xB#4 0x0000000100000000#128 0x0000000100000000#128 0#1 :: [] ∧ decode 0xB#4 = .ok .fmul := by decide

/-- The line of P2's third transaction, and what it issues. -/
def canonLine : Line := .txn (.core .canon) [some 2] [.atom (.var 1)]
def canonVars : VarMap := [(1, v64 0xFFFFFFFF00000002)]
def canonIssue : Issue := ⟨0x9#4, 0xFFFFFFFF00000002#128, 0#128, 0#1, [(some 2, .y 0 64)]⟩

theorem witness_StepRunsTheIssuedTransaction :
    (withLine canonVars canonLine).program = canonLine :: [] ∧
    canonLine.act Config.addWideStrategy canonVars = .ok (.issue canonIssue) ∧ decode canonIssue.cmd = .ok .canon ∧
    ∃ u, exec .canon { withLine canonVars canonLine with
      cmd := canonIssue.cmd, a := canonIssue.a, b := canonIssue.b, cin := canonIssue.cin, program := [] } = .next u :=
  ⟨rfl, rfl, rfl, _, rfl⟩
theorem witness_PlacedWordRunsNext : decodeTableWord 4 0x0 = some .adcF ∧ decodeTableWord 8 0x0B = some .fmul := by decide
theorem witness_EmptyProgramIsRefused : State.reset.program = [] := by decide
theorem witness_IssuedTransactionStopsOnlyOnReservedCode :
    (Line.present 0xB#4 0 0 0).act Config.addWideStrategy [] = .ok (.issue ⟨0xB#4, 0, 0, 0, []⟩) ∧
    (Line.present 0xC#4 0 0 0).act Config.addWideStrategy [] = .ok (.issue ⟨0xC#4, 0, 0, 0, []⟩) ∧
    canonLine.act Config.addWideStrategy canonVars = .ok (.issue canonIssue) ∧ canonIssue.cmd.toNat < 0xC :=
  ⟨rfl, rfl, rfl, by decide⟩

theorem witness_EmulatedLimbEqualsFlagLimb : 1 ≤ 1 ∧ adcEmul 1#1 1#1 1#1 = (1#1, 1#1) := by decide
theorem witness_EmulatedCarriesExcludeEachOther : 1 ≤ 32 ∧ (adcWires 0xFFFFFFFF#32 1#32 0#1).c0 = 1#1 ∧
    (adcWires 1#1 1#1 0#1).c0 = 1#1 := by decide
theorem witness_AdcEmulatedCommandComparesTwice : 1 ≤ 1 ∧ adcEmul 1#1 1#1 1#1 = (1#1, 1#1) := by decide
theorem witness_ChainedAdcAddsTwoLimbsUnderAnyMix :
    ∃ t u, exec .adcF { State.reset with a := 0xFFFFFFFF#128, b := 1#128, cin := 0#1 } = .next t ∧
      exec .adcE { t with a := 0xFFFFFFFF#128, b := 0#128, cin := t.cout } = .next u ∧ t.cout = 1#1 ∧ u.cout = 1#1 :=
  ⟨_, _, rfl, rfl, by decide, by decide⟩
theorem witness_ChainsCarryFromLimbToLimb : [1#1, 1#1].length = [1#1, 0#1].length ∧
    addWideEmul [1#1, 1#1] [1#1, 0#1] = ([0#1, 0#1], 1#1) ∧ addWideFlag ([] : List Limb) [] = ([], 0#1) := by decide
theorem witness_ChainsComputeTheIntegerSum : 1 ≤ 32 ∧
    addWideFlag [0xFFFFFFFF#32, 0xFFFFFFFE#32] [1#32, 1#32] = ([0#32, 0#32], 1#1) ∧
    wideValue [0xFFFFFFFF#32, 0xFFFFFFFE#32] + wideValue [1#32, 1#32] = 2 ^ 64 := by decide
theorem witness_WideAdderVariantsAgree : 1 ≤ 1 ∧ addWideEmul [1#1] [1#1] = ([0#1], 1#1) := by decide
theorem witness_WidenMulLaws : 1 ≤ 1 ∧ widenMul (k := 2) 3#2 3#2 = (1#2, 2#2) ∧ widenMul (k := 2) 0#2 3#2 = (0#2, 0#2) ∧
    widenMul 0xFFFFFFFF#32 0xFFFFFFFF#32 = (1#32, 0xFFFFFFFE#32) := by decide
theorem witness_CorrectionsRestoreTheResidue :
    (addc 0xFFFFFFFFFFFFFFFF#64 1#64).2 = 1#1 ∧ (subb 0#64 1#64).2 = 1#1 := by decide
theorem witness_ReduceIsCongruentAndItsCorrectionsNeverWrap :
    (redWires 0#64 0xFFFFFFFFFFFFFFFF#64).b = 1#1 ∧ (redWires 0#64 0xFFFFFFFFFFFFFFFF#64).c = 1#1 := by decide
theorem witness_CanonDecidesEqualityOfResidues : canonicalize 0xFFFFFFFF00000001#64 = canonicalize 0#64 ∧
    Instr.red ∈ [Instr.red, Instr.fadd, Instr.fmul] := by decide
theorem witness_FieldAddIsCongruentAndCommutative :
    (faddWires 0xFFFFFFFFFFFFFFFF#64 0xFFFFFFFF00000002#64).c1 = 1#1 := by decide
theorem witness_FieldRoundTripIsZero :
    (fieldMul 0xFFFFFFFF00000001#64 0x3039#64).toNat ≤ Config.P.toNat ∧
    fieldMul 0xFFFFFFFF00000001#64 0x3039#64 = Config.P ∧
    Config.P.toNat < (fieldMul 0xFFFFFFFF00000002#64 1#64).toNat ∧
    ((fieldMul 0xFFFFFFFF00000002#64 1#64).toNat + (0xFFFFFFFF00000000#64 : DWord).toNat) % Config.P.toNat =
      0 % Config.P.toNat := by decide
theorem witness_NoInformationIsLost : Instr.adcE ∈ [Instr.adcF, Instr.adcE] ∧ Instr.addw2E ∈ [Instr.addw2F, Instr.addw2E] ∧
    Instr.addw4E ∈ [Instr.addw4F, Instr.addw4E] := by decide

/-- The inputs of vectors Z9 and G3, which differ in ignored bits only. -/
def stateZ9 : State :=
  { State.reset with
    a := 0x00000000000000010000000000000000#128
    b := 0xFFFFFFFFFFFFFFFFFFFFFFFFFFFFFFFF#128
    cin := 1#1 }
def stateG3 : State := { State.reset with a := 0x00000000000000010000000000000000#128 }

theorem witness_IgnoredInputBitsAndUnusedOutputBits :
    stateZ9 ≠ stateG3 ∧ stateZ9.a &&& readsA .red = stateG3.a &&& readsA .red ∧
    stateZ9.b &&& readsB .red = stateG3.b &&& readsB .red ∧
    stateZ9.cin &&& readsCin .red = stateG3.cin &&& readsCin .red := by decide
theorem witness_TransactionsAreIndependent :
    (0xB#4 : Cmd).toNat < 0xC ∧
    (presenting 0xB#4 3#128 5#128 0#1).program = .present 0xB#4 3#128 5#128 0#1 :: [] ∧
    ({ stateZ9 with program := [.present 0xB#4 3#128 5#128 0#1, canonLine] } : State).program =
      .present 0xB#4 3#128 5#128 0#1 :: [canonLine] := by decide
theorem witness_StepKeepsOutputsFollowingInputs :
    OutputsFollowInputs (presenting 0xB#4 3#128 5#128 0#1) ∧ SafeStep (presenting 0xB#4 3#128 5#128 0#1) :=
  ⟨⟨.adcF, rfl, rfl⟩, _, rfl⟩
theorem witness_StepKeepsHostMapCanonical :
    VarsCanonical (withLine canonVars canonLine) ∧ SafeStep (withLine canonVars canonLine) := ⟨rfl, _, rfl⟩
theorem witness_StrategyChangesNoOutcome :
    (∃ r, runLine .flag (.letVar 0 (.limbs [])) State.reset = .refused r) ∧
    (∃ t, runLine .emul (.txn .adc [none, none] [.atom (.literal 1 1), .atom (.literal 1 2), .atom (.literal 1 1)])
      State.reset = .next t ∧ t.y = 4 ∧ t.cmd = 0x1) := ⟨⟨_, rfl⟩, _, rfl, by decide, by decide⟩

/-- Operands at the top of their widths, and the bit. -/
def top32 : Source := .atom (.literal 8 0xFFFFFFFF)
def top64 : Source := .atom (.var 1)
def top128 : Source := .limbs [.literal 8 0xFFFFFFFF, .literal 8 0xFFFFFFFF, .literal 8 0xFFFFFFFF, .literal 8 0xFFFFFFFF]
def topVars : VarMap := [(1, v64 0xFFFFFFFFFFFFFFFF)]

theorem witness_AdcLineAssignsSumAndCarry :
    (withLine [] (.txn (.core .adcE) [some 3, none] [top32, top32, .atom (.literal 1 1)])).program =
      .txn (.core .adcE) [some 3, none] [top32, top32, .atom (.literal 1 1)] :: [] ∧
    destsWf [some 3, none] = true ∧ top32.wf = true ∧ Source.wf (.atom (.literal 1 1)) = true ∧
    top32.operand [] 32 = .ok 0xFFFFFFFF ∧ Source.operand [] 1 (.atom (.literal 1 1)) = .ok 1 := by decide
theorem witness_WideAddLineAssignsSumAndCarry :
    (withLine topVars (.txn (.core .addw4E) [some 3, some 4] [top128, top128])).program =
      .txn (.core .addw4E) [some 3, some 4] [top128, top128] :: [] ∧
    (Instr.addw4E, 128) ∈ [(Instr.addw2F, 64), (Instr.addw2E, 64), (Instr.addw4F, 128), (Instr.addw4E, 128)] ∧
    destsWf [some 3, some 4] = true ∧ top128.wf = true ∧ top64.wf = true ∧
    top128.operand topVars 128 = .ok (2 ^ 128 - 1) ∧ top64.operand topVars 64 = .ok (2 ^ 64 - 1) := by decide
theorem witness_MultiplyLineAssignsBothHalves :
    (withLine topVars (.txn (.core .wmuld) [none, some 1] [top64, top64])).program =
      .txn (.core .wmuld) [none, some 1] [top64, top64] :: [] ∧
    (Instr.wmuld, 64) ∈ [(Instr.wmul, 32), (Instr.wmuld, 64)] ∧ destsWf [none, some 1] = true ∧ top64.wf = true ∧
    top64.operand topVars 64 = .ok (2 ^ 64 - 1) ∧ top32.operand topVars 32 = .ok (2 ^ 32 - 1) := by decide
theorem witness_FieldLineAssignsARepresentative :
    (withLine topVars (.txn (.core .red) [some 1] [top64, top64])).program =
      .txn (.core .red) [some 1] [top64, top64] :: [] ∧
    Instr.red ∈ [Instr.red, Instr.fadd, Instr.fmul] ∧ Instr.fmul ≠ .red ∧ top64.wf = true ∧
    top64.operand topVars 64 = .ok (2 ^ 64 - 1) := by decide
theorem witness_CanonLineAssignsTheResidue :
    (withLine topVars canonLine).program = .txn (.core .canon) [some 2] [top64] :: [] ∧ top64.wf = true ∧
    top64.operand topVars 64 = .ok (2 ^ 64 - 1) := by decide
theorem witness_ReduceOfAProductTakesItWhole :
    (withLine [] (.txn .reduceProduct [some 0] [top128])).program = .txn .reduceProduct [some 0] [top128] :: [] ∧
    top128.wf = true ∧ top128.operand [] 128 = .ok (2 ^ 128 - 1) := by decide
theorem witness_DirectivesProduceNoTransaction :
    (withLine topVars (.letVar 0 top64)).program = .letVar 0 top64 :: [] ∧ top64.wf = true ∧
    top64.value topVars = .ok (v64 0xFFFFFFFFFFFFFFFF) ∧ literalWf 16 0xFFFFFFFFFFFFFFFF = true ∧
    (v64 0xFFFFFFFFFFFFFFFF).bits.toNat ≤ 0xFFFFFFFFFFFFFFFF ∧ literalWf 16 0xFFFFFFFFFFFFFFFE = true ∧
    0xFFFFFFFFFFFFFFFE < (v64 0xFFFFFFFFFFFFFFFF).bits.toNat ∧
    (withLine topVars (.letDiff 0 16 0xFFFFFFFFFFFFFFFE top64)).program = .letDiff 0 16 0xFFFFFFFFFFFFFFFE top64 :: [] ∧
    (withLine topVars (.expect 1 16 0xFFFFFFFFFFFFFFFE)).program = .expect 1 16 0xFFFFFFFFFFFFFFFE :: [] ∧
    lookupVar topVars 1 = some (v64 0xFFFFFFFFFFFFFFFF) := by decide
theorem witness_UnassignedNameStopsTheHost :
    lookupVar topVars 0 = none ∧
    [Line.letVar 9 (.atom (.slice 0 3 0)), .letDiff 9 1 5 (.atom (.var 0)), .expect 0 1 5,
      .txn (.core .adcF) [none, none] [.atom (.var 0), top32, top32],
      .txn .addWide [none, none] [.limbs [.var 0, .literal 1 0], top64],
      .txn .reduceProduct [none] [.concat [.var 0, .var 1]]].all
        (fun line => line.wf && line.readsFirst 0 && line.reads 0) = true ∧
    Line.reads 0 (.txn .adc [none, none] [top32, top32, .atom (.var 0)]) = true ∧
    Line.reads 0 (.letVar 9 (.concat [.var 1, .slice 0 3 0])) = true := by decide
theorem witness_NamesStandForTheirCommands :
    top128.value [] = .ok ⟨128, 0xFFFFFFFFFFFFFFFFFFFFFFFFFFFFFFFF#128⟩ ∧
    top64.value topVars = .ok (v64 0xFFFFFFFFFFFFFFFF) ∧ top32.value [] = .ok ⟨32, 0xFFFFFFFF#32⟩ ∧
    Source.value topVars (.atom (.slice 1 31 0)) = .ok ⟨32, 0xFFFFFFFF#32⟩ ∧
    Source.isLiteral (.atom (.slice 1 31 0)) = false ∧ top64.isLiteral = false ∧ top32.isLiteral = true := by decide
theorem witness_NamedLineRunsAsItsCommand :
    Mnemonic.addw ≠ .reduceProduct ∧ Mnemonic.addw.resolve .emul topVars [top64, top64] = .ok .addw2E := by decide

end Sys2Proof.Tests
end

section
/-! SUPPORT. One limb (40_limb_adder R90 to R94): both strategies read as the quotient and the remainder of the
true sum, hence one function. -/

namespace Sys2Proof.Machine

section Limb
variable {k : Nat}

/-- The wrapping sum and its comparison lose nothing (40_limb_adder R91). -/
theorem addc_exact (x z : BitVec k) :
    (addc x z).1.toNat + (addc x z).2.toNat * 2 ^ k = x.toNat + z.toNat := by
  have hx := x.isLt
  have hz := z.isLt
  rw [addc, ltu_toNat, addK_toNat_cases]
  split <;> split <;> omega

/-- The wrapping difference and its comparison lose nothing (40_limb_adder R91). -/
theorem subb_exact (x z : BitVec k) :
    (subb x z).1.toNat + z.toNat = x.toNat + (subb x z).2.toNat * 2 ^ k := by
  have hx := x.isLt
  have hz := z.isLt
  rw [subb, ltu_toNat, subK_toNat_cases]
  split <;> split <;> omega

/-- A limb and a carry are fixed by the integer they stand for. -/
theorem limb_carry_ext {p q : BitVec k × Bit}
    (h : p.1.toNat + p.2.toNat * 2 ^ k = q.1.toNat + q.2.toNat * 2 ^ k) : p = q := by
  have low (r : BitVec k × Bit) : (r.1.toNat + r.2.toNat * 2 ^ k) % 2 ^ k = r.1.toNat := by
    rw [Nat.add_mul_mod_self_right, Nat.mod_eq_of_lt r.1.isLt]
  have high (r : BitVec k × Bit) : (r.1.toNat + r.2.toNat * 2 ^ k) / 2 ^ k = r.2.toNat := by
    rw [Nat.add_mul_div_right _ _ (Nat.two_pow_pos k), Nat.div_eq_of_lt r.1.isLt, Nat.zero_add]
  exact Prod.ext (BitVec.eq_of_toNat_eq (by rw [← low p, h, low q]))
    (BitVec.eq_of_toNat_eq (by rw [← high p, h, high q]))

/-- The true sum of two limbs and a carry fits `k + 1` bits (40_limb_adder R90). -/
theorem limb_sum_lt (x z : BitVec k) (ci : Bit) : x.toNat + z.toNat + ci.toNat < 2 ^ (k + 1) := by
  have hx := x.isLt
  have hz := z.isLt
  have hc := bit_toNat_le ci
  rw [Nat.pow_succ]
  omega

theorem adcFlag_fst_toNat (x z : BitVec k) (ci : Bit) :
    (adcFlag x z ci).1.toNat = (x.toNat + z.toNat + ci.toNat) % 2 ^ k := by
  have hle : 2 ^ k ∣ 2 ^ (k + 1) := Nat.pow_dvd_pow 2 (Nat.le_succ k)
  simp only [adcFlag, BitVec.toNat_setWidth, BitVec.toNat_add, Nat.mod_add_mod, Nat.add_mod_mod,
    Nat.mod_mod_of_dvd _ hle]

theorem adcFlag_snd_toNat (x z : BitVec k) (ci : Bit) :
    (adcFlag x z ci).2.toNat = (x.toNat + z.toNat + ci.toNat) / 2 ^ k := by
  have hT := limb_sum_lt x z ci
  have hq : (x.toNat + z.toNat + ci.toNat) / 2 ^ k < 2 := by
    rwa [Nat.div_lt_iff_lt_mul (Nat.two_pow_pos k), Nat.mul_comm, ← Nat.pow_succ]
  simp only [adcFlag, BitVec.extractLsb'_toNat, BitVec.toNat_add, BitVec.toNat_setWidth, Nat.mod_add_mod,
    Nat.add_mod_mod, Nat.mod_eq_of_lt hT, Nat.shiftRight_eq_div_pow]
  exact Nat.mod_eq_of_lt hq

/-- ADC.F's function loses nothing of the true sum (40_limb_adder R90, R92). -/
theorem adcFlag_exact (x z : BitVec k) (ci : Bit) :
    x.toNat + z.toNat + ci.toNat = (adcFlag x z ci).1.toNat + (adcFlag x z ci).2.toNat * 2 ^ k := by
  rw [adcFlag_fst_toNat, adcFlag_snd_toNat, Nat.mod_add_div']

/-- The two additions of ADC.E and their two carries lose nothing (40_limb_adder R93). -/
theorem adcWires_exact (hk : 1 ≤ k) (x z : BitVec k) (ci : Bit) :
    (adcWires x z ci).u.toNat + ((adcWires x z ci).c0.toNat + (adcWires x z ci).c1.toNat) * 2 ^ k =
      x.toNat + z.toNat + ci.toNat := by
  have h0 := addc_exact x z
  have h1 := addc_exact (addK x z) (ci.setWidth k)
  rw [bit_setWidth_toNat hk] at h1
  rw [addc] at h0 h1
  simp only [adcWires]
  linear_combination h0 + h1

/-- At most one of the two carries is set, as the whole sum wraps at most once (40_limb_adder R95). -/
theorem adcWires_carries_le_one (hk : 1 ≤ k) (x z : BitVec k) (ci : Bit) :
    (adcWires x z ci).c0.toNat + (adcWires x z ci).c1.toNat ≤ 1 := by
  have hexact := adcWires_exact hk x z ci
  have hlt := limb_sum_lt x z ci
  rw [Nat.pow_succ'] at hlt
  exact Nat.le_of_lt_succ (Nat.lt_of_mul_lt_mul_right (a := 2 ^ k) (by omega))

/-- The OR of two bits that exclude each other is their sum. -/
theorem bit_or_toNat_of_exclusive {c d : Bit} (h : c.toNat + d.toNat ≤ 1) :
    (c ||| d).toNat = c.toNat + d.toNat := by
  revert c d
  decide

/-- ADC.E's function loses nothing of the true sum either (40_limb_adder R90, R93). -/
theorem adcEmul_exact (hk : 1 ≤ k) (x z : BitVec k) (ci : Bit) :
    x.toNat + z.toNat + ci.toNat = (adcEmul x z ci).1.toNat + (adcEmul x z ci).2.toNat * 2 ^ k := by
  rw [← adcWires_exact hk, adcEmul, bit_or_toNat_of_exclusive (adcWires_carries_le_one hk x z ci)]

/-- The two strategies are one function at every width of at least one bit (40_limb_adder R94). -/
theorem adcEmul_eq_adcFlag (hk : 1 ≤ k) : adcEmul (k := k) = adcFlag := by
  funext x z ci
  exact limb_carry_ext ((adcEmul_exact hk x z ci).symm.trans (adcFlag_exact x z ci))

end Limb

end Sys2Proof.Machine
end

section
/-! SUPPORT. The chains (41_wide_adder R107, R108) and the six adding commands. -/

namespace Sys2Proof.Machine

/-- The emulated chain is the flag-assisted one, at every length (41_wide_adder R108). -/
theorem addWideEmul_eq_addWideFlag {k : Nat} (hk : 1 ≤ k) (xs zs : List (BitVec k)) :
    addWideEmul xs zs = addWideFlag xs zs := by
  rw [addWideEmul, addWideFlag, adcEmul_eq_adcFlag hk]

/-- The chain has as many limbs as its operands, and loses nothing of their sum (41_wide_adder R107). -/
theorem addWideFlag_value {k : Nat} (xs zs : List (BitVec k)) (hl : xs.length = zs.length) :
    (addWideFlag xs zs).1.length = xs.length ∧
    wideValue xs + wideValue zs =
      wideValue (addWideFlag xs zs).1 + (addWideFlag xs zs).2.toNat * 2 ^ (k * xs.length) :=
  carryChain_value adcFlag adcFlag_exact xs zs hl 0#1

/-- At most four limbs fit a port, so packing them loses nothing (20_memory R51). -/
theorem packLimbs_toNat_of_length {ls : List Limb} (h : ls.length ≤ 4) : (packLimbs ls).toNat = wideValue ls := by
  have hlt : 2 ^ (32 * ls.length) ≤ 2 ^ 128 := Nat.pow_le_pow_right (by decide) (by omega)
  rw [packLimbs_toNat, Nat.mod_eq_of_lt (Nat.lt_of_lt_of_le (wideValue_lt ls) hlt)]

/-- What a wide add of `n` limbs drives on `y` and `cout`: nothing of the sum is lost. -/
theorem addWideFlag_packed {n : Nat} {xs zs : List Limb} (hx : xs.length = n) (hz : zs.length = n) (hn : n ≤ 4) :
    (packLimbs (addWideFlag xs zs).1).toNat + (addWideFlag xs zs).2.toNat * 2 ^ (32 * n) =
      wideValue xs + wideValue zs := by
  obtain ⟨hlen, hval⟩ := addWideFlag_value xs zs (hx.trans hz.symm)
  rw [hx] at hlen hval
  rw [packLimbs_toNat_of_length (hlen.trans_le hn), hval]

section Commands
variable (s : State)

theorem exec_adcE : exec .adcE s = exec .adcF s := by
  simp only [exec, execAdcE, execAdcF, adcEmul_eq_adcFlag (show 1 ≤ 32 by decide)]

theorem exec_addw2E : exec .addw2E s = exec .addw2F s := by
  simp only [exec, execAddw2E, execAddw2F, addWideEmul_eq_addWideFlag (show 1 ≤ 32 by decide)]

theorem exec_addw4E : exec .addw4E s = exec .addw4F s := by
  simp only [exec, execAddw4E, execAddw4F, addWideEmul_eq_addWideFlag (show 1 ≤ 32 by decide)]

theorem exec_adcF_exact : ∃ t, exec .adcF s = .next t ∧
    t.y.toNat + t.cout.toNat * 2 ^ 32 = s.a.toNat % 2 ^ 32 + s.b.toNat % 2 ^ 32 + s.cin.toNat := by
  refine ⟨_, rfl, ?_⟩
  rw [zext128_toNat _ (by decide), ← adcFlag_exact, low32_toNat, low32_toNat]

theorem exec_addw2F_exact : ∃ t, exec .addw2F s = .next t ∧
    t.y.toNat + t.cout.toNat * 2 ^ 64 = s.a.toNat % 2 ^ 64 + s.b.toNat % 2 ^ 64 := by
  refine ⟨_, rfl, ?_⟩
  rw [← wideValue_limbsOf_two s.a, ← wideValue_limbsOf_two s.b]
  exact addWideFlag_packed (n := 2) rfl rfl (by decide)

theorem exec_addw4F_exact : ∃ t, exec .addw4F s = .next t ∧
    t.y.toNat + t.cout.toNat * 2 ^ 128 = s.a.toNat + s.b.toNat := by
  refine ⟨_, rfl, ?_⟩
  rw [← wideValue_limbsOf_four s.a, ← wideValue_limbsOf_four s.b]
  exact addWideFlag_packed (n := 4) rfl rfl (by decide)

end Commands

end Sys2Proof.Machine
end

section
/-! SUPPORT. The multiplier (42_widening_multiplier R116 to R120): the half-products are exact, and the accumulation
loses no bit, at every even width. -/

namespace Sys2Proof.Machine

section Multiplier
variable {k : Nat}

theorem and_lowHalfMask_toNat (x : BitVec k) :
    (x &&& BitVec.ofNat k (2 ^ (k / 2) - 1)).toNat = x.toNat % 2 ^ (k / 2) := by
  have hle : 2 ^ (k / 2) ≤ 2 ^ k := Nat.pow_le_pow_right (by decide) (Nat.div_le_self k 2)
  have hpos := Nat.two_pow_pos (k / 2)
  rw [BitVec.toNat_and, BitVec.toNat_ofNat, Nat.mod_eq_of_lt (by omega), Nat.and_two_pow_sub_one_eq_mod]

/-- The width of a product of two halves. -/
theorem two_pow_half_mul_self (hk : 2 ∣ k) : 2 ^ (k / 2) * 2 ^ (k / 2) = 2 ^ k := by
  rw [← Nat.pow_add, ← Nat.two_mul, Nat.mul_div_cancel' hk]

theorem low_half_lt (x : BitVec k) : x.toNat % 2 ^ (k / 2) < 2 ^ (k / 2) :=
  Nat.mod_lt _ (Nat.two_pow_pos _)

theorem high_half_lt (hk : 2 ∣ k) (x : BitVec k) : x.toNat / 2 ^ (k / 2) < 2 ^ (k / 2) := by
  rw [Nat.div_lt_iff_lt_mul (Nat.two_pow_pos _), two_pow_half_mul_self hk]
  exact x.isLt

/-- A product of two halves fits the width (42_widening_multiplier R117). -/
theorem half_product_lt (hk : 2 ∣ k) {m n : Nat} (hm : m < 2 ^ (k / 2)) (hn : n < 2 ^ (k / 2)) :
    m * n < 2 ^ k := by
  rw [← two_pow_half_mul_self hk]
  exact Nat.mul_lt_mul'' hm hn

theorem halfProducts_ll_toNat (hk : 2 ∣ k) (x z : BitVec k) :
    (halfProducts x z).ll.toNat = (x.toNat % 2 ^ (k / 2)) * (z.toNat % 2 ^ (k / 2)) := by
  simp only [halfProducts, BitVec.toNat_mul, and_lowHalfMask_toNat]
  exact Nat.mod_eq_of_lt (half_product_lt hk (low_half_lt x) (low_half_lt z))

theorem halfProducts_lh_toNat (hk : 2 ∣ k) (x z : BitVec k) :
    (halfProducts x z).lh.toNat = (x.toNat % 2 ^ (k / 2)) * (z.toNat / 2 ^ (k / 2)) := by
  simp only [halfProducts, BitVec.toNat_mul, and_lowHalfMask_toNat, BitVec.toNat_ushiftRight,
    Nat.shiftRight_eq_div_pow]
  exact Nat.mod_eq_of_lt (half_product_lt hk (low_half_lt x) (high_half_lt hk z))

theorem halfProducts_hl_toNat (hk : 2 ∣ k) (x z : BitVec k) :
    (halfProducts x z).hl.toNat = (x.toNat / 2 ^ (k / 2)) * (z.toNat % 2 ^ (k / 2)) := by
  simp only [halfProducts, BitVec.toNat_mul, and_lowHalfMask_toNat, BitVec.toNat_ushiftRight,
    Nat.shiftRight_eq_div_pow]
  exact Nat.mod_eq_of_lt (half_product_lt hk (high_half_lt hk x) (low_half_lt z))

theorem halfProducts_hh_toNat (hk : 2 ∣ k) (x z : BitVec k) :
    (halfProducts x z).hh.toNat = (x.toNat / 2 ^ (k / 2)) * (z.toNat / 2 ^ (k / 2)) := by
  simp only [halfProducts, BitVec.toNat_mul, BitVec.toNat_ushiftRight, Nat.shiftRight_eq_div_pow]
  exact Nat.mod_eq_of_lt (half_product_lt hk (high_half_lt hk x) (high_half_lt hk z))

/-- The four half-products, at their places, make the product. -/
theorem halfProducts_sum (hk : 2 ∣ k) (x z : BitVec k) :
    (halfProducts x z).ll.toNat + ((halfProducts x z).lh.toNat + (halfProducts x z).hl.toNat) * 2 ^ (k / 2) +
      (halfProducts x z).hh.toNat * 2 ^ k = x.toNat * z.toNat := by
  rw [halfProducts_ll_toNat hk, halfProducts_lh_toNat hk, halfProducts_hl_toNat hk, halfProducts_hh_toNat hk,
    ← two_pow_half_mul_self hk]
  have hx := Nat.mod_add_div x.toNat (2 ^ (k / 2))
  have hz := Nat.mod_add_div z.toNat (2 ^ (k / 2))
  generalize x.toNat % 2 ^ (k / 2) = xl, x.toNat / 2 ^ (k / 2) = xh at *
  generalize z.toNat % 2 ^ (k / 2) = zl, z.toNat / 2 ^ (k / 2) = zh at *
  rw [← hx, ← hz]
  ring

/-- The first wrap of the accumulation is accounted for by `c1`. -/
theorem accumulate_cross (p : HalfProducts k) :
    (accumulate p).cross.toNat + (accumulate p).c1.toNat * 2 ^ k = p.lh.toNat + p.hl.toNat :=
  addc_exact p.lh p.hl

/-- The second wrap of the accumulation is accounted for by `c2`. -/
theorem accumulate_lo (p : HalfProducts k) :
    (accumulate p).lo.toNat + (accumulate p).c2.toNat * 2 ^ k = p.ll.toNat + (accumulate p).sh.toNat :=
  addc_exact p.ll (accumulate p).sh

/-- The shift loses the upper half of `cross` and nothing else. -/
theorem accumulate_sh (hk : 2 ∣ k) (p : HalfProducts k) :
    (accumulate p).sh.toNat + (accumulate p).cross.toNat / 2 ^ (k / 2) * 2 ^ k =
      (accumulate p).cross.toNat * 2 ^ (k / 2) := by
  have hdiv : (accumulate p).cross.toNat / 2 ^ (k / 2) = (accumulate p).cross.toNat * 2 ^ (k / 2) / 2 ^ k := by
    rw [← two_pow_half_mul_self hk, Nat.mul_div_mul_right _ _ (Nat.two_pow_pos _)]
  have hsh : (accumulate p).sh.toNat = (accumulate p).cross.toNat * 2 ^ (k / 2) % 2 ^ k := by
    simp [accumulate, Nat.shiftLeft_eq]
  rw [hdiv, hsh, Nat.mod_add_div']

/-- What `hi` sums up, before any wrap. -/
def hiSum (p : HalfProducts k) : Nat :=
  p.hh.toNat + (accumulate p).cross.toNat / 2 ^ (k / 2) + (accumulate p).c1.toNat * 2 ^ (k / 2) +
    (accumulate p).c2.toNat

theorem accumulate_hi_mod (p : HalfProducts k) : (accumulate p).hi.toNat = hiSum p % 2 ^ k := by
  have hhi : (accumulate p).hi = addK (addK (addK p.hh ((accumulate p).cross >>> (k / 2)))
      ((accumulate p).c1.setWidth k <<< (k / 2))) ((accumulate p).c2.setWidth k) := rfl
  simp only [hhi, hiSum, addK_toNat, BitVec.toNat_ushiftRight, BitVec.toNat_shiftLeft, BitVec.toNat_setWidth,
    Nat.shiftRight_eq_div_pow, Nat.shiftLeft_eq, Nat.mod_mul_mod, Nat.mod_add_mod, Nat.add_mod_mod]

/-- The accumulated wires stand for the sum of the half-products at their places (42_widening_multiplier R118). -/
theorem accumulate_value (hk : 2 ∣ k) (p : HalfProducts k) :
    (accumulate p).lo.toNat + hiSum p * 2 ^ k =
      p.ll.toNat + (p.lh.toNat + p.hl.toNat) * 2 ^ (k / 2) + p.hh.toNat * 2 ^ k := by
  have hcross := accumulate_cross p
  have hlo := accumulate_lo p
  have hsh := accumulate_sh hk p
  rw [hiSum]
  linear_combination hlo + hsh + 2 ^ (k / 2) * hcross

/-- The sum that forms `hi` never wraps, as the whole is a product of two `k`-bit numbers
(42_widening_multiplier R118). -/
theorem accumulate_hi (hk : 2 ∣ k) (x z : BitVec k) :
    (accumulate (halfProducts x z)).hi.toNat = hiSum (halfProducts x z) := by
  have hval := (accumulate_value hk _).trans (halfProducts_sum hk x z)
  have hprod : x.toNat * z.toNat < 2 ^ k * 2 ^ k := Nat.mul_lt_mul'' x.isLt z.isLt
  rw [accumulate_hi_mod]
  exact Nat.mod_eq_of_lt (Nat.lt_of_mul_lt_mul_right (a := 2 ^ k) (by omega))

/-- The widening product is exact (42_widening_multiplier R116). -/
theorem widenMul_exact (hk : 2 ∣ k) (x z : BitVec k) :
    (widenMul x z).1.toNat + (widenMul x z).2.toNat * 2 ^ k = x.toNat * z.toNat := by
  rw [widenMul, accumulate_hi hk, accumulate_value hk, halfProducts_sum hk]

end Multiplier

section Commands
variable (s : State)

theorem exec_wmul_exact : ∃ t, exec .wmul s = .next t ∧
    t.y.toNat = (s.a.toNat % 2 ^ 32) * (s.b.toNat % 2 ^ 32) := by
  refine ⟨_, rfl, ?_⟩
  rw [zext128_toNat _ (by decide), joinPair_toNat, widenMul_exact (by decide), low32_toNat, low32_toNat]

theorem exec_wmuld_exact : ∃ t, exec .wmuld s = .next t ∧
    t.y.toNat = (s.a.toNat % 2 ^ 64) * (s.b.toNat % 2 ^ 64) := by
  refine ⟨_, rfl, ?_⟩
  rw [joinPair_toNat, widenMul_exact (by decide), low64_toNat, low64_toNat]

end Commands

end Sys2Proof.Machine
end

section
/-! SUPPORT. The Goldilocks reducer and the field commands (43_goldilocks R130 to R142): the exact representative
each answers, and its residue. -/

namespace Sys2Proof.Machine

theorem P_toNat : Config.P.toNat = 18446744069414584321 := rfl

theorem EPS_toNat : Config.EPS.toNat = 4294967295 := rfl

/-- Taking multiples of `P` away keeps the residue. -/
theorem congruentModP_of_add_mul {m n : Nat} (q : Nat) (h : m + Config.P.toNat * q = n) : CongruentModP m n := by
  rw [CongruentModP, ← h, Nat.add_mul_mod_self_left]

/-- A correction is `EPS` or nothing, as the bit says (43_goldilocks R132). -/
@[simp] theorem gate_EPS_toNat (c : Bit) : (gate c Config.EPS).toNat = c.toNat * Config.EPS.toNat := by
  obtain rfl | rfl := bit_cases c <;> rfl

section Reduce
variable (lo hi : DWord)

theorem hiHi_toNat : ((hi.extractLsb' 32 32).setWidth 64 : DWord).toNat = hi.toNat / 2 ^ 32 := by
  rw [BitVec.toNat_setWidth, BitVec.extractLsb'_toNat, Nat.shiftRight_eq_div_pow]
  omega

theorem hiLo_toNat : ((hi.extractLsb' 0 32).setWidth 64 : DWord).toNat = hi.toNat % 2 ^ 32 := by
  rw [BitVec.toNat_setWidth, BitVec.extractLsb'_toNat, Nat.shiftRight_zero]
  omega

/-- The subtraction of `hi_hi`, and its wrap on `b`. -/
theorem redWires_t0_exact :
    (redWires lo hi).t0.toNat + hi.toNat / 2 ^ 32 = lo.toNat + (redWires lo hi).b.toNat * 2 ^ 64 := by
  rw [← hiHi_toNat]
  exact subb_exact lo _

/-- The repair after the subtraction, up to a wrap of its own. -/
theorem redWires_t0c_exact : ∃ w : Bit,
    (redWires lo hi).t0c.toNat + (redWires lo hi).b.toNat * Config.EPS.toNat =
      (redWires lo hi).t0.toNat + w.toNat * 2 ^ 64 := by
  rw [← gate_EPS_toNat]
  exact ⟨_, subb_exact _ _⟩

/-- Subtracting `hi_hi` and repairing adds `P` exactly when the subtraction wrapped. -/
theorem redWires_t0c_toNat :
    (redWires lo hi).t0c.toNat =
      if hi.toNat / 2 ^ 32 ≤ lo.toNat then lo.toNat - hi.toNat / 2 ^ 32
      else lo.toNat + Config.P.toNat - hi.toNat / 2 ^ 32 := by
  have hhi := hi.isLt
  have hb := bit_toNat_le (redWires lo hi).b
  have ht0 := (redWires lo hi).t0.isLt
  have ht0c := (redWires lo hi).t0c.isLt
  have hsub := redWires_t0_exact lo hi
  obtain ⟨w, hrepair⟩ := redWires_t0c_exact lo hi
  rw [EPS_toNat] at hrepair
  rw [P_toNat]
  split <;> omega

/-- `hi_lo * EPS` by a shift and a subtraction never wraps. -/
theorem redWires_t1_toNat : (redWires lo hi).t1.toNat = hi.toNat % 2 ^ 32 * Config.EPS.toNat := by
  simp only [redWires, subK_toNat_cases, BitVec.toNat_shiftLeft, Nat.shiftLeft_eq, hiLo_toNat, EPS_toNat]
  split <;> omega

/-- The addition of `t1`, and its wrap on `c`. -/
theorem redWires_t2_exact :
    (redWires lo hi).t2.toNat + (redWires lo hi).c.toNat * 2 ^ 64 =
      (redWires lo hi).t0c.toNat + (redWires lo hi).t1.toNat :=
  addc_exact _ _

/-- The repair after the addition, up to a wrap of its own. -/
theorem reduce_exact : ∃ w : Bit,
    (reduce lo hi).toNat + w.toNat * 2 ^ 64 =
      (redWires lo hi).t2.toNat + (redWires lo hi).c.toNat * Config.EPS.toNat := by
  rw [← gate_EPS_toNat]
  exact ⟨_, addc_exact _ _⟩

/-- The representative the reducer answers: the second repair takes `P` away exactly when the addition wrapped
(43_goldilocks R134). -/
theorem reduce_toNat :
    (reduce lo hi).toNat =
      if (redWires lo hi).t0c.toNat + (redWires lo hi).t1.toNat < 2 ^ 64
      then (redWires lo hi).t0c.toNat + (redWires lo hi).t1.toNat
      else (redWires lo hi).t0c.toNat + (redWires lo hi).t1.toNat - Config.P.toNat := by
  have ht0c := (redWires lo hi).t0c.isLt
  have ht1 := redWires_t1_toNat lo hi
  have hc := bit_toNat_le (redWires lo hi).c
  have ht2 := (redWires lo hi).t2.isLt
  have hr := (reduce lo hi).isLt
  have hsum := redWires_t2_exact lo hi
  obtain ⟨w, hrepair⟩ := reduce_exact lo hi
  rw [EPS_toNat] at ht1 hrepair
  rw [P_toNat]
  split <;> omega

/-- `lo + hi * 2^64` with `2^64 ≡ EPS` and `2^96 ≡ -1`: what the reducer adds up has the residue
(43_goldilocks R131). -/
theorem redWires_sum_congruent :
    CongruentModP ((redWires lo hi).t0c.toNat + (redWires lo hi).t1.toNat) (lo.toNat + hi.toNat * 2 ^ 64) := by
  rw [redWires_t0c_toNat, redWires_t1_toNat, CongruentModP, EPS_toNat, P_toNat]
  split <;> omega

/-- The contract of the reducer (43_goldilocks R135). -/
theorem reduce_congruent : CongruentModP (reduce lo hi).toNat (lo.toNat + hi.toNat * 2 ^ 64) := by
  refine Eq.trans ?_ (redWires_sum_congruent lo hi)
  rw [reduce_toNat]
  split
  · rfl
  · exact congruentModP_of_add_mul 1 (by rw [P_toNat]; omega)

end Reduce

/-- Canonicalising takes the remainder: one subtraction of `P` is enough for 64 bits (43_goldilocks R137). -/
theorem canonicalize_toNat (x : DWord) : (canonicalize x).toNat = x.toNat % Config.P.toNat := by
  have hx := x.isLt
  rw [canonicalize, subK_toNat_cases]
  obtain h | h := bit_cases (geu x Config.P)
  · have hlt : x.toNat < Config.P.toNat := by
      rw [← Nat.not_le, ← geu_eq_one_iff, h]
      decide
    simp [h, Nat.mod_eq_of_lt hlt]
  · have hle := (geu_eq_one_iff x Config.P).1 h
    rw [h, gate_one, if_pos hle, Nat.mod_eq_sub_mod hle, Nat.mod_eq_of_lt (by rw [P_toNat]; omega)]

section FieldAdd
variable (x z : DWord)

/-- The addition, and its wrap on `c0`. -/
theorem faddWires_s_exact :
    (faddWires x z).s.toNat + (faddWires x z).c0.toNat * 2 ^ 64 = x.toNat + z.toNat :=
  addc_exact x z

/-- The first correction, and its own wrap on `c1`. -/
theorem faddWires_s1_exact :
    (faddWires x z).s1.toNat + (faddWires x z).c1.toNat * 2 ^ 64 =
      (faddWires x z).s.toNat + (faddWires x z).c0.toNat * Config.EPS.toNat := by
  rw [← gate_EPS_toNat]
  exact addc_exact _ _

/-- The second correction, up to a wrap of its own. -/
theorem fieldAdd_exact : ∃ w : Bit,
    (fieldAdd x z).toNat + w.toNat * 2 ^ 64 =
      (faddWires x z).s1.toNat + (faddWires x z).c1.toNat * Config.EPS.toNat := by
  rw [← gate_EPS_toNat]
  exact ⟨_, addc_exact _ _⟩

/-- The representative `field_add` answers: no, one or two corrections (43_goldilocks R139). -/
theorem fieldAdd_toNat :
    (fieldAdd x z).toNat =
      if x.toNat + z.toNat < 2 ^ 64 then x.toNat + z.toNat
      else if x.toNat + z.toNat < 2 ^ 64 + Config.P.toNat then x.toNat + z.toNat - Config.P.toNat
      else x.toNat + z.toNat - 2 * Config.P.toNat := by
  have hs := (faddWires x z).s.isLt
  have hs1 := (faddWires x z).s1.isLt
  have hc0 := bit_toNat_le (faddWires x z).c0
  have hc1 := bit_toNat_le (faddWires x z).c1
  have hsum := faddWires_s_exact x z
  have hfirst := faddWires_s1_exact x z
  have hr := (fieldAdd x z).isLt
  obtain ⟨w, hsecond⟩ := fieldAdd_exact x z
  rw [EPS_toNat] at hfirst hsecond
  rw [P_toNat]
  split
  · omega
  · split <;> omega

/-- The corrections take multiples of `P` away (43_goldilocks R140). -/
theorem fieldAdd_congruent : CongruentModP (fieldAdd x z).toNat (x.toNat + z.toNat) := by
  rw [fieldAdd_toNat]
  split
  · rfl
  · split
    · exact congruentModP_of_add_mul 1 (by rw [P_toNat]; omega)
    · exact congruentModP_of_add_mul 2 (by rw [P_toNat] at *; omega)

end FieldAdd

/-- The exact product, reduced (43_goldilocks R142). -/
theorem fieldMul_congruent (x z : DWord) : CongruentModP (fieldMul x z).toNat (x.toNat * z.toNat) := by
  rw [← widenMul_exact (by decide)]
  exact reduce_congruent _ _

section Commands
variable (s : State)

/-- A field command's answer is a 64-bit pattern on the port. -/
theorem zext128_dword_lt (x : DWord) : (zext128 x).toNat < 2 ^ 64 := by
  rw [zext128_toNat x (by decide)]
  exact x.isLt

theorem exec_red_congruent : ∃ t, exec .red s = .next t ∧
    CongruentModP t.y.toNat s.a.toNat ∧ t.y.toNat < 2 ^ 64 := by
  refine ⟨_, rfl, ?_, zext128_dword_lt _⟩
  have h := reduce_congruent (low64 s.a) (high64 s.a)
  rwa [low64_toNat, high64_toNat, Nat.mod_add_div', ← zext128_toNat _ (by decide)] at h

theorem exec_canon_congruent : ∃ t, exec .canon s = .next t ∧
    CongruentModP t.y.toNat (s.a.toNat % 2 ^ 64) ∧ t.y.toNat < Config.P.toNat := by
  refine ⟨_, rfl, ?_⟩
  rw [zext128_toNat _ (by decide), canonicalize_toNat, low64_toNat]
  exact ⟨Nat.mod_mod _ _, Nat.mod_lt _ (by decide)⟩

theorem exec_fadd_congruent : ∃ t, exec .fadd s = .next t ∧
    CongruentModP t.y.toNat (s.a.toNat % 2 ^ 64 + s.b.toNat % 2 ^ 64) ∧ t.y.toNat < 2 ^ 64 := by
  refine ⟨_, rfl, ?_, zext128_dword_lt _⟩
  rw [zext128_toNat _ (by decide), ← low64_toNat, ← low64_toNat]
  exact fieldAdd_congruent _ _

theorem exec_fmul_congruent : ∃ t, exec .fmul s = .next t ∧
    CongruentModP t.y.toNat (s.a.toNat % 2 ^ 64 * (s.b.toNat % 2 ^ 64)) ∧ t.y.toNat < 2 ^ 64 := by
  refine ⟨_, rfl, ?_, zext128_dword_lt _⟩
  rw [zext128_toNat _ (by decide), ← low64_toNat, ← low64_toNat]
  exact fieldMul_congruent _ _

end Commands

end Sys2Proof.Machine
end

section
/-! SUPPORT. The carry strategy of a host's line (00_scope R9): it picks between two commands that share their
widths, the ports they drive, the outputs they copy and their answer. -/

namespace Sys2Proof.Machine

/-- The command that stands in for `i` under the emulated strategy: its `.E` form where it has one. -/
def emulatedForm : Instr → Instr
  | .adcF => .adcE
  | .addw2F => .addw2E
  | .addw4F => .addw4E
  | i => i

section Emulated
variable (i : Instr)

theorem exec_emulatedForm (s : State) : exec (emulatedForm i) s = exec i s := by
  cases i
  case adcF => exact exec_adcE s
  case addw2F => exact exec_addw2E s
  case addw4F => exact exec_addw4E s
  all_goals rfl

theorem sourceWidths_emulatedForm (mn : Mnemonic) : mn.sourceWidths (emulatedForm i) = mn.sourceWidths i := by
  have hcommand : Sys2Proof.Machine.sourceWidths (emulatedForm i) = Sys2Proof.Machine.sourceWidths i := by
    cases i <;> rfl
  cases mn
  case reduceProduct => rfl
  all_goals exact hcommand

theorem issueOf_emulatedForm (ops : List Nat) (dests : List Dest) :
    issueOf (emulatedForm i) ops dests = { issueOf i ops dests with cmd := encode (emulatedForm i) } := by
  cases i <;> rfl

end Emulated

theorem bySize_emulatedForm (widths : List Nat) (wide narrow : Nat × Instr) :
    bySize widths (wide.1, emulatedForm wide.2) (narrow.1, emulatedForm narrow.2) =
      (bySize widths wide narrow).map emulatedForm := by
  simp only [bySize]
  split
  · rfl
  · split <;> rfl

/-- The strategy has no part in what a name stands for, or replaces the command by its emulated form
(30_encoding R78). -/
theorem resolve_emul (m : VarMap) (srcs : List Source) (mn : Mnemonic) :
    mn.resolve .emul m srcs = mn.resolve .flag m srcs ∨
    mn.resolve .emul m srcs = (mn.resolve .flag m srcs).map emulatedForm := by
  cases mn
  case adc => exact .inr rfl
  case addw | add | addWide =>
    right
    simp only [Mnemonic.resolve]
    split
    · rfl
    · exact bySize_emulatedForm _ (128, .addw4F) (64, .addw2F)
  all_goals exact .inl rfl

/-- Two issues of commands with the same answer, which differ in the code on `cmd` alone. -/
def SameButCmd (t u : Issue) : Prop :=
  ∃ i j, decode t.cmd = .ok i ∧ u = { t with cmd := encode j } ∧ ∀ s, exec j s = exec i s

/-- The strategy changes an issued transaction in the code on `cmd` alone. -/
theorem issueLine_emul (m : VarMap) (mn : Mnemonic) (dests : List Dest) (srcs : List Source) :
    issueLine .emul m mn dests srcs = issueLine .flag m mn dests srcs ∨
    ∃ t u, issueLine .flag m mn dests srcs = .ok t ∧ issueLine .emul m mn dests srcs = .ok u ∧ SameButCmd t u := by
  obtain h | h := resolve_emul m srcs mn
  · left
    rw [issueLine, issueLine, h]
  · rw [issueLine, issueLine, h]
    cases mn.resolve .flag m srcs with
    | error e => exact .inl rfl
    | ok i =>
      simp only [Except.map, sourceWidths_emulatedForm]
      cases operandValues m (mn.sourceWidths i) srcs with
      | error e => exact .inl rfl
      | ok ops =>
        exact .inr ⟨_, _, rfl, rfl, i, emulatedForm i, by rw [issueOf_cmd, decode_encode_code],
          issueOf_emulatedForm i ops dests, exec_emulatedForm i⟩

/-- Of a host's lines only a transaction looks at the strategy. -/
theorem Line.act_emul (m : VarMap) (line : Line) :
    line.act .emul m = line.act .flag m ∨
    ∃ t u, line.act .flag m = .ok (.issue t) ∧ line.act .emul m = .ok (.issue u) ∧ SameButCmd t u := by
  cases line
  case txn mn dests srcs =>
    rw [Line.act, Line.act]
    split
    · obtain h | ⟨t, u, ht, hu, htu⟩ := issueLine_emul m mn dests srcs
      · exact .inl (by simp only [h])
      · exact .inr ⟨t, u, by simp only [ht, Except.map], by simp only [hu, Except.map], htu⟩
    · exact .inl rfl
  all_goals exact .inl rfl

/-- A transaction whose command answers goes on, with the answer copied out. -/
theorem transact_answers {t : Issue} {i : Instr} {s : State} {y : Bus} {cout : Bit} (hd : decode t.cmd = .ok i)
    (he : exec i (s.present t) = (s.present t).answer y cout) :
    transact t s = .next (({ s.present t with y := y, cout := cout } : State).copyOut t.copies) := by
  rw [transact_ok s hd, he, State.answer_eq, finish]

/-- Issues that differ in the code alone lead to states that do. -/
theorem transact_sameButCmd {t u : Issue} (s : State) (h : SameButCmd t u) :
    ∃ s₁ s₂, transact t s = .next s₁ ∧ transact u s = .next s₂ ∧ s₂ = { s₁ with cmd := s₂.cmd } := by
  obtain ⟨i, j, hi, rfl, hexec⟩ := h
  obtain ⟨y, cout, ht, hu⟩ :=
    exec_congr i (s := s.present t) (t := s.present { t with cmd := encode j }) rfl rfl rfl
  exact ⟨_, _, transact_answers hi ht, transact_answers (decode_encode_code j) ((hexec _).trans hu), rfl⟩

/-- The block has no fault, so a line stops with a refusal or goes on (60_exceptions R160). -/
theorem runLine_refused_or_next (strategy : Strategy) (line : Line) (s : State) :
    (∃ r, runLine strategy line s = .refused r) ∨ ∃ t, runLine strategy line s = .next t := by
  cases runLine strategy line s with
  | next t => exact .inr ⟨t, rfl⟩
  | refused r => exact .inl ⟨r, rfl⟩
  | fault f => cases f

end Sys2Proof.Machine
end

section
/-! The statements of 00_scope. -/

open Sys2Proof Sys2Proof.Machine

/-- Settles O9: every command ends in the one operation that drives the outputs. -/
theorem everyCommandCompletesOnAllOperands : Obligations.EveryCommandCompletesOnAllOperands :=
  exec_answers

/-- Settles O28: the values, and `EPS + P = 2^64` read as a congruence. -/
theorem goldilocksConstants : Obligations.GoldilocksConstants :=
  ⟨P_toNat, EPS_toNat, rfl, (congruentModP_of_add_mul 1 rfl).symm⟩

/-- Settles O40, command by command; the emulated adders are the flag-assisted ones. -/
theorem noInformationIsLost : Obligations.NoInformationIsLost := by
  intro s
  refine ⟨?_, ?_, ?_, exec_wmul_exact s, exec_wmuld_exact s, exec_red_congruent s, exec_canon_congruent s,
    exec_fadd_congruent s, exec_fmul_congruent s⟩
  · simpa [exec_adcE] using exec_adcF_exact s
  · simpa [exec_addw2E] using exec_addw2F_exact s
  · simpa [exec_addw4E] using exec_addw4F_exact s

/-- Settles O46: a line's act either ignores the strategy or issues the same transaction under another code. -/
theorem strategyChangesNoOutcome : Obligations.StrategyChangesNoOutcome := by
  intro line s
  obtain hact | ⟨t, u, ht, hu, htu⟩ := line.act_emul s.vars
  · have hrun : runLine .emul line s = runLine .flag line s := by rw [runLine, runLine, hact]
    rw [hrun]
    obtain ⟨r, hr⟩ | ⟨t, ht⟩ := runLine_refused_or_next .flag line s
    · exact .inl ⟨r, hr, hr⟩
    · exact .inr ⟨t, t, ht, ht, rfl⟩
  · simp only [runLine, ht, hu]
    exact .inr (transact_sameButCmd s htu)

end

section
/-! SUPPORT. The packing table (20_memory R53, R54): what a command reads of its operands lies under the table's
masks, and so does what it drives. -/

namespace Sys2Proof.Machine

theorem lowMask_getLsbD (n i : Nat) : (lowMask n).getLsbD i = (decide (i < 128) && decide (i < n)) := by
  rw [lowMask, BitVec.getLsbD_ofNat, Nat.testBit_two_pow_sub_one]

section Reads
variable {v w : Bus} {n : Nat}

/-- A mask above a slice's top bit takes nothing from the slice. -/
theorem extractLsb'_and_lowMask (v : Bus) {lo k : Nat} (hle : lo + k ≤ n) :
    (v &&& lowMask n).extractLsb' lo k = v.extractLsb' lo k := by
  apply BitVec.eq_of_getLsbD_eq
  intro i hi
  have hn : lo + i < n := by omega
  rw [BitVec.getLsbD_extractLsb', BitVec.getLsbD_extractLsb', BitVec.getLsbD_and, lowMask_getLsbD]
  by_cases hbus : lo + i < 128
  · simp [hn, hbus]
  · rw [BitVec.getLsbD_of_ge v (lo + i) (by omega), Bool.false_and]

/-- Ports that agree under a mask agree on each slice below its top. -/
theorem extractLsb'_congr (h : v &&& lowMask n = w &&& lowMask n) {lo k : Nat} (hle : lo + k ≤ n) :
    v.extractLsb' lo k = w.extractLsb' lo k := by
  rw [← extractLsb'_and_lowMask v hle, h, extractLsb'_and_lowMask w hle]

theorem low32_congr (h : v &&& lowMask 32 = w &&& lowMask 32) : low32 v = low32 w :=
  extractLsb'_congr h (by decide)

theorem low64_congr (h : v &&& lowMask 64 = w &&& lowMask 64) : low64 v = low64 w :=
  extractLsb'_congr h (by decide)

theorem limbsOf_congr (h : v &&& lowMask (32 * n) = w &&& lowMask (32 * n)) : limbsOf n v = limbsOf n w := by
  refine List.map_congr_left fun i hi => extractLsb'_congr h ?_
  have hin := List.mem_range.1 hi
  omega

theorem eq_of_and_lowMask_bus (h : v &&& lowMask 128 = w &&& lowMask 128) : v = w := by
  simpa using extractLsb'_congr h (lo := 0) (k := 128) (by decide)

end Reads

theorem bit_and_one (c : Bit) : c &&& 1#1 = c := by
  revert c; decide

/-- A command's outputs depend on the bits the packing table lists for it (20_memory R53, R54). -/
theorem exec_congr_of_reads (i : Instr) {s t : State} (ha : s.a &&& readsA i = t.a &&& readsA i)
    (hb : s.b &&& readsB i = t.b &&& readsB i) (hc : s.cin &&& readsCin i = t.cin &&& readsCin i) :
    ∃ y cout, exec i s = s.answer y cout ∧ exec i t = t.answer y cout := by
  cases i
  case adcF | adcE =>
    have hcin : s.cin = t.cin := by rwa [readsCin, bit_and_one, bit_and_one] at hc
    simp only [exec, execAdcF, execAdcE, low32_congr ha, low32_congr hb, hcin]
    exact ⟨_, _, rfl, rfl⟩
  case addw2F | addw2E =>
    simp only [exec, execAddw2F, execAddw2E, limbsOf_congr (n := 2) ha, limbsOf_congr (n := 2) hb]
    exact ⟨_, _, rfl, rfl⟩
  case addw4F | addw4E =>
    simp only [exec, execAddw4F, execAddw4E, limbsOf_congr (n := 4) ha, limbsOf_congr (n := 4) hb]
    exact ⟨_, _, rfl, rfl⟩
  case wmul =>
    simp only [exec, execWmul, low32_congr ha, low32_congr hb]
    exact ⟨_, _, rfl, rfl⟩
  case wmuld | fadd | fmul =>
    simp only [exec, execWmuld, execFadd, execFmul, low64_congr ha, low64_congr hb]
    exact ⟨_, _, rfl, rfl⟩
  case red =>
    simp only [exec, execRed, eq_of_and_lowMask_bus ha]
    exact ⟨_, _, rfl, rfl⟩
  case canon =>
    simp only [exec, execCanon, low64_congr ha]
    exact ⟨_, _, rfl, rfl⟩

/-- A value below `2^n` has no bit outside the mask of its `n` low bits. -/
theorem and_not_lowMask_eq_zero {v : Bus} {n : Nat} (h : v.toNat < 2 ^ n) : v &&& ~~~ lowMask n = 0 := by
  apply BitVec.eq_of_getLsbD_eq
  intro i hi
  by_cases hn : i < n
  · simp [lowMask_getLsbD, hi, hn]
  · have hv : v.getLsbD i = false :=
      Nat.testBit_lt_two_pow (h.trans_le (Nat.pow_le_pow_right (by decide) (by omega)))
    simp [hv]

theorem zext128_and_not_lowMask {k : Nat} (v : BitVec k) (hk : k ≤ 128) : zext128 v &&& ~~~ lowMask k = 0 :=
  and_not_lowMask_eq_zero (by rw [zext128_toNat v hk]; exact v.isLt)

/-- The sum of a wide add of `n` limbs lies in the low `n` limbs of the port. -/
theorem packLimbs_addWideFlag_and_not_lowMask {n : Nat} {xs zs : List Limb} (hx : xs.length = n)
    (hz : zs.length = n) (hn : n ≤ 4) : packLimbs (addWideFlag xs zs).1 &&& ~~~ lowMask (32 * n) = 0 := by
  have hlen : (addWideFlag xs zs).1.length = n := (addWideFlag_value xs zs (hx.trans hz.symm)).1.trans hx
  apply and_not_lowMask_eq_zero
  rw [packLimbs_toNat_of_length (hlen.trans_le hn), ← hlen]
  exact wideValue_lt _

theorem bit_and_not_one (c : Bit) : c &&& ~~~ 1#1 = 0 := by
  revert c; decide

/-- A command drives the bits the packing table lists for it, and 0 on the rest (20_memory R53, R54). -/
theorem exec_drives (i : Instr) (s : State) : ∃ y cout, exec i s = s.answer y cout ∧
    y &&& ~~~ drivesY i = 0 ∧ cout &&& ~~~ drivesCout i = 0 := by
  cases i
  case adcF | adcE => exact ⟨_, _, rfl, zext128_and_not_lowMask _ (by decide), bit_and_not_one _⟩
  case addw2F =>
    exact ⟨_, _, rfl, packLimbs_addWideFlag_and_not_lowMask (n := 2) rfl rfl (by decide),
      bit_and_not_one _⟩
  case addw2E =>
    rw [exec_addw2E]
    exact ⟨_, _, rfl, packLimbs_addWideFlag_and_not_lowMask (n := 2) rfl rfl (by decide),
      bit_and_not_one _⟩
  case addw4F | addw4E => exact ⟨_, _, rfl, and_not_lowMask_eq_zero (BitVec.isLt _), bit_and_not_one _⟩
  case wmul => exact ⟨_, _, rfl, zext128_and_not_lowMask (joinPair _) (by decide), rfl⟩
  case wmuld => exact ⟨_, _, rfl, and_not_lowMask_eq_zero (BitVec.isLt _), rfl⟩
  case red | canon | fadd | fmul => exact ⟨_, _, rfl, zext128_and_not_lowMask _ (by decide), rfl⟩

end Sys2Proof.Machine
end

section
/-! SUPPORT. A presented transaction as a step (20_memory R57): the block as a function of the four inputs. -/

namespace Sys2Proof.Machine

/-- Below the four reserved codes every code is a command's (30_encoding R74, R75). -/
theorem exists_decode_of_lt {c : Cmd} (hc : c.toNat < 0xC) : ∃ i, decode c = .ok i := by
  have hok : ∀ c : Cmd, c.toNat < 0xC → (decode c).isOk = true := by decide
  cases hd : decode c with
  | ok i => exact ⟨i, rfl⟩
  | error e => exact absurd (hok c hc) (by simp [hd, Except.isOk, Except.toBool])

/-- What one state answers to a command, every state with the same operand ports answers. -/
theorem exec_answer_of_ports {i : Instr} {s t : State} {y : Bus} {cout : Bit} (h : exec i s = s.answer y cout)
    (ha : s.a = t.a) (hb : s.b = t.b) (hc : s.cin = t.cin) : exec i t = t.answer y cout := by
  obtain ⟨y', cout', hs, ht⟩ := exec_congr i ha hb hc
  rw [h] at hs
  cases hs
  exact ht

section Present
variable {c : Cmd} (a b : Bus) (cin : Bit)

/-- The line by which the host presents a transaction runs it and copies nothing out (00_scope R15). -/
theorem step_present {s : State} {rest : List Line} (hp : s.program = .present c a b cin :: rest) :
    step s = transact ⟨c, a, b, cin, []⟩ { s with program := rest } := by
  rw [step_cons hp]
  rfl

/-- A code below 0xC, presented, is answered with the block's function of the inputs, from every state. -/
theorem step_present_answers (hc : c.toNat < 0xC) : ∃ y cout, blockFunction c a b cin = .ok (y, cout) ∧
    ∀ {s : State} {rest : List Line}, s.program = .present c a b cin :: rest →
      step s = .next { s with cmd := c, a := a, b := b, cin := cin, y := y, cout := cout, program := rest } := by
  obtain ⟨i, hd⟩ := exists_decode_of_lt hc
  obtain ⟨y, cout, he⟩ := exec_answers i (State.reset.present ⟨c, a, b, cin, []⟩)
  refine ⟨y, cout, ?_, fun hp => ?_⟩
  · rw [blockFunction, transact_answers hd he]
    rfl
  · rw [step_present a b cin hp]
    exact transact_answers hd (exec_answer_of_ports he rfl rfl rfl)

end Present

end Sys2Proof.Machine
end

section
/-! The statements of 20_memory. -/

open Sys2Proof Sys2Proof.Machine

/-- Settles O41: the answer is a function of the bits under the masks, and lies under them itself. -/
theorem ignoredInputBitsAndUnusedOutputBits : Obligations.IgnoredInputBitsAndUnusedOutputBits := by
  intro i s s' ha hb hc
  obtain ⟨y, cout, hs, hs'⟩ := exec_congr_of_reads i ha hb hc
  obtain ⟨y', cout', hdrives, hy, hcout⟩ := exec_drives i s
  rw [hs] at hdrives
  cases hdrives
  exact ⟨_, _, hs, hs', rfl, rfl, hy, hcout⟩

/-- Settles O42: each transaction's outputs are the block's function of its inputs, whatever state it is
presented in. -/
theorem transactionsAreIndependent : Obligations.TransactionsAreIndependent := by
  constructor
  · intro s s' c a b cin rest rest' hc hp hp'
    obtain ⟨y, cout, hf, hstep⟩ := step_present_answers a b cin hc
    exact ⟨_, _, hstep hp, hstep hp', rfl, rfl, hf⟩
  · intro s c1 c2 a1 b1 a2 b2 cin1 cin2 hc1 hc2
    obtain ⟨y1, cout1, -, hstep1⟩ := step_present_answers a1 b1 cin1 hc1
    obtain ⟨y2, cout2, -, hstep2⟩ := step_present_answers a2 b2 cin2 hc2
    exact ⟨_, _, _, _, hstep1 rfl, hstep2 rfl, hstep2 rfl, hstep1 rfl, rfl, rfl, rfl, rfl⟩

end

section
/-! SUPPORT. The reserved codes (30_encoding R75): no row of the table selects them, so the decoder names them and a
transaction that presents one is refused. -/

namespace Sys2Proof.Machine

theorem not_selects_of_reserved :
    ∀ c : Cmd, 0xC ≤ c.toNat → ∀ r ∈ opcodeRows, ¬ r.selects c := by
  decide

section Reserved
variable {c : Cmd}

theorem decode_of_reserved (hc : 0xC ≤ c.toNat) : decode c = .error (.reservedCode c) := by
  rw [decode, List.find?_eq_none.2 (not_selects_of_reserved c hc)]

theorem decode_ne_ok_of_reserved (hc : 0xC ≤ c.toNat) (i : Instr) : decode c ≠ .ok i := by
  simp [decode_of_reserved hc]

/-- A code that is no command's is one of the four reserved ones. -/
theorem reserved_of_decode_ne_ok (h : ∀ i, decode c ≠ .ok i) : 0xC ≤ c.toNat := by
  by_contra hlt
  obtain ⟨i, hi⟩ := exists_decode_of_lt (not_le.1 hlt)
  exact h i hi

end Reserved

/-- A transaction under a reserved code is refused, whatever its operands (30_encoding R75, 60_exceptions R163). -/
theorem transact_of_reserved {t : Issue} (s : State) (hc : 0xC ≤ t.cmd.toNat) :
    transact t s = .refused (.reservedCommand t.cmd) := by
  simp [transact, decode_of_reserved hc]

end Sys2Proof.Machine
end

section
/-! The statements of 30_encoding. -/

open Sys2Proof Sys2Proof.Machine

/-- Settles O4: a reserved code selects no row of the command table, and every code below 0xC selects one. -/
theorem reservedCodesAreRefused : Obligations.ReservedCodesAreRefused := by
  refine ⟨fun c => ⟨decode_of_reserved, fun hd => ?_⟩,
    fun c => ⟨decode_ne_ok_of_reserved, reserved_of_decode_ne_ok⟩, fun s c a b cin rest hc => ?_⟩
  · exact reserved_of_decode_ne_ok fun i => by simp [hd]
  · rw [step_present a b cin rfl]
    exact transact_of_reserved _ hc

end

section
/-! SUPPORT. The one-limb adder, output by output (40_limb_adder R91 to R93): when a comparison is set, and the
outputs of both strategies written as the remainder, the quotient and the comparisons of the rules. -/

namespace Sys2Proof.Machine

/-- A bit is fixed by when it is set. -/
theorem bit_eq_of_eq_one_iff {c d : Bit} (h : c = 1#1 ↔ d = 1#1) : c = d := by
  revert c d
  decide

theorem bit_or_eq_ite (c d : Bit) : c ||| d = if c = 1#1 ∨ d = 1#1 then 1#1 else 0#1 := by
  revert c d
  decide

section Comparisons
variable {k : Nat} (x z : BitVec k)

/-- The comparison with the first operand is set exactly when the sum wrapped (40_limb_adder R91). -/
theorem ltu_addK_eq_one_iff : ltu (addK x z) x = 1#1 ↔ 2 ^ k ≤ x.toNat + z.toNat := by
  have hz := z.isLt
  rw [ltu_eq_one_iff, addK_toNat_cases]
  split <;> omega

theorem addK_comm : addK x z = addK z x := BitVec.add_comm x z

/-- Either operand tells the same of a wrapped sum (40_limb_adder R91). -/
theorem ltu_addK_right : ltu (addK x z) z = ltu (addK x z) x := by
  apply bit_eq_of_eq_one_iff
  rw [ltu_addK_eq_one_iff, addK_comm, ltu_addK_eq_one_iff, Nat.add_comm]

/-- The comparison with the wrapped difference is set exactly when the difference wrapped (40_limb_adder R91). -/
theorem ltu_subK_eq_one_iff : ltu x (subK x z) = 1#1 ↔ x.toNat < z.toNat := by
  have hz := z.isLt
  rw [ltu_eq_one_iff, subK_toNat_cases]
  split <;> omega

/-- The OR of two comparisons is set exactly when one of them holds. -/
theorem ltu_or_ltu (x' z' : BitVec k) :
    ltu x z ||| ltu x' z' = if x.toNat < z.toNat ∨ x'.toNat < z'.toNat then 1#1 else 0#1 := by
  simp only [bit_or_eq_ite, ltu_eq_one_iff]

end Comparisons

section Outputs
variable {k : Nat} (x z : BitVec k) (ci : Bit)

theorem adcFlag_eq_ofNat : adcFlag x z ci =
    (BitVec.ofNat k ((x.toNat + z.toNat + ci.toNat) % 2 ^ k),
      BitVec.ofNat 1 ((x.toNat + z.toNat + ci.toNat) / 2 ^ k)) := by
  rw [← adcFlag_fst_toNat, ← adcFlag_snd_toNat]
  simp

theorem adcEmul_fst_toNat (hk : 1 ≤ k) :
    (adcEmul x z ci).1.toNat = ((x.toNat + z.toNat) % 2 ^ k + ci.toNat) % 2 ^ k := by
  rw [adcEmul, adcWires, addK_toNat, addK_toNat, bit_setWidth_toNat hk]

/-- The carry of the emulated step is the OR of the two comparisons (40_limb_adder R93). -/
theorem adcEmul_snd (hk : 1 ≤ k) : (adcEmul x z ci).2 =
    if (x.toNat + z.toNat) % 2 ^ k < x.toNat ∨
      ((x.toNat + z.toNat) % 2 ^ k + ci.toNat) % 2 ^ k < (x.toNat + z.toNat) % 2 ^ k then 1#1 else 0#1 := by
  simp only [adcEmul, adcWires, ltu_or_ltu, addK_toNat, bit_setWidth_toNat hk]

end Outputs

theorem zext128_eq_ofNat {k : Nat} (v : BitVec k) : zext128 v = BitVec.ofNat 128 v.toNat :=
  (BitVec.ofNat_toNat 128 v).symm

end Sys2Proof.Machine
end

section
/-! The statements of 40_limb_adder. -/

open Sys2Proof Sys2Proof.Machine

/-- Settles O11: limb and carry are the remainder and the quotient of the true sum, which fits `k + 1` bits. -/
theorem limbAdditionLaw : Obligations.LimbAdditionLaw := by
  intro k x z ci
  refine ⟨Nat.le_sub_one_of_lt (limb_sum_lt x z ci), adcFlag_fst_toNat x z ci, adcFlag_snd_toNat x z ci, ?_,
    adcFlag_exact x z ci⟩
  rw [← adcFlag_snd_toNat]
  exact bit_toNat_le _

/-- Settles O12: a sum that wrapped lies below both operands, a difference that wrapped above the prior operand. -/
theorem comparisonDetectsWrap : Obligations.ComparisonDetectsWrap := fun _ x z =>
  ⟨ltu_addK_eq_one_iff x z, ltu_addK_right x z, ltu_eq_one_iff x z, ltu_subK_eq_one_iff x z, subb_exact x z⟩

/-- Settles O13: both strategies lose nothing of the true sum, which fixes limb and carry. -/
theorem emulatedLimbEqualsFlagLimb : Obligations.EmulatedLimbEqualsFlagLimb :=
  ⟨fun _ x z ci hk => by rw [adcEmul_eq_adcFlag hk], exec_adcE⟩

/-- Settles O15: ADC.F answers the limb function of the two low words. -/
theorem adcFlagCommandAnswersExactSum : Obligations.AdcFlagCommandAnswersExactSum := by
  refine ⟨decode_encode_code .adcF, fun s => ?_, fun _ => adcFlag_eq_ofNat⟩
  simp only [exec, execAdcF, State.answer_eq, zext128_eq_ofNat, adcFlag_eq_ofNat, low32_toNat, BitVec.toNat_ofNat,
    Nat.mod_mod]

/-- Settles O16: ADC.E answers the emulated limb function of the two low words. -/
theorem adcEmulatedCommandComparesTwice : Obligations.AdcEmulatedCommandComparesTwice := by
  refine ⟨decode_encode_code .adcE, fun s => ?_, fun k x z ci hk => ?_⟩
  · have hw : 1 ≤ 32 := by decide
    simp only [exec, execAdcE, State.answer_eq, zext128_eq_ofNat, adcEmul_fst_toNat _ _ _ hw,
      adcEmul_snd _ _ _ hw, low32_toNat]
  · refine Prod.ext ?_ (adcEmul_snd x z ci hk)
    rw [← adcEmul_fst_toNat x z ci hk]
    simp

end

section
/-! SUPPORT. The chains, limb by limb (41_wide_adder R100, R101) and as one sum (R107), for any width and length. -/

namespace Sys2Proof.Machine

section Carries
variable {k : Nat} (f : BitVec k → BitVec k → Bit → BitVec k × Bit)

/-- The carry after the first `j` limbs of a chain: what the chain of these limbs alone carries out. -/
def carryAfter (ps : List (BitVec k × BitVec k)) (ci : Bit) (j : Nat) : Bit :=
  (carryChain f (ps.take j) ci).2

theorem carryAfter_zero (ps : List (BitVec k × BitVec k)) (ci : Bit) : carryAfter f ps ci 0 = ci := rfl

theorem carryAfter_length (ps : List (BitVec k × BitVec k)) (ci : Bit) :
    carryAfter f ps ci ps.length = (carryChain f ps ci).2 := by
  rw [carryAfter, List.take_length]

theorem carryAfter_cons_succ (p : BitVec k × BitVec k) (ps : List (BitVec k × BitVec k)) (ci : Bit) (j : Nat) :
    carryAfter f (p :: ps) ci (j + 1) = carryAfter f ps (f p.1 p.2 ci).2 j := rfl

theorem carryChain_length (ps : List (BitVec k × BitVec k)) (ci : Bit) :
    (carryChain f ps ci).1.length = ps.length := by
  induction ps generalizing ci with
  | nil => rfl
  | cons p ps ih => simp [carryChain, ih]

/-- A limb of the result and the carry after it are the limb step of the operands' limbs and the carry before it. -/
theorem carryChain_limb (ps : List (BitVec k × BitVec k)) (ci : Bit) {j : Nat} (hj : j < ps.length) :
    ((carryChain f ps ci).1.getD j 0, carryAfter f ps ci (j + 1)) = f ps[j].1 ps[j].2 (carryAfter f ps ci j) := by
  induction ps generalizing ci j with
  | nil => exact absurd hj (Nat.not_lt_zero j)
  | cons p ps ih =>
    cases j with
    | zero => rfl
    | succ j =>
      rw [carryAfter_cons_succ, carryAfter_cons_succ]
      exact ih (f p.1 p.2 ci).2 (Nat.lt_of_succ_lt_succ hj)

/-- The same of a chain over two operands of one length, with the length of the result and its carry-out. -/
theorem carryChain_zip_carries {xs zs : List (BitVec k)} (hl : xs.length = zs.length) (ci : Bit) :
    (carryChain f (xs.zip zs) ci).1.length = xs.length ∧
    (carryChain f (xs.zip zs) ci).2 = carryAfter f (xs.zip zs) ci xs.length ∧
    ∀ j, j < xs.length → ((carryChain f (xs.zip zs) ci).1.getD j 0, carryAfter f (xs.zip zs) ci (j + 1)) =
      f (xs.getD j 0) (zs.getD j 0) (carryAfter f (xs.zip zs) ci j) := by
  have hzip : (xs.zip zs).length = xs.length := by simp [hl]
  refine ⟨(carryChain_length f _ ci).trans hzip, ?_, fun j hj => ?_⟩
  · rw [← hzip, carryAfter_length]
  · have hlimb := carryChain_limb f (xs.zip zs) ci (hj.trans_eq hzip.symm)
    rwa [List.getElem_zip, ← List.getD_eq_getElem xs 0 hj, ← List.getD_eq_getElem zs 0 (hj.trans_eq hl)] at hlimb

/-- With no carry into it the emulated step is the plain sum with the one comparison (41_wide_adder R101). -/
theorem adcEmul_carry_zero (x z : BitVec k) : adcEmul x z 0#1 = (addK x z, ltu (addK x z) x) := by
  have hu : addK (addK x z) ((0#1 : Bit).setWidth k) = addK x z := by simp [addK]
  have hc1 : ltu (addK x z) (addK x z) = 0#1 := (ltu_eq_zero_iff _ _).2 le_rfl
  simp only [adcEmul, adcWires, hu, hc1, BitVec.or_zero]

end Carries

section Sum
variable {k : Nat} {xs zs : List (BitVec k)} (hl : xs.length = zs.length)
include hl

theorem addWideFlag_fst_value_lt : wideValue (addWideFlag xs zs).1 < 2 ^ (k * xs.length) :=
  (addWideFlag_value xs zs hl).1 ▸ wideValue_lt (addWideFlag xs zs).1

/-- The chain's limbs stand for the sum modulo `2^(k*n)` (41_wide_adder R107). -/
theorem addWideFlag_fst_value :
    wideValue (addWideFlag xs zs).1 = (wideValue xs + wideValue zs) % 2 ^ (k * xs.length) := by
  rw [(addWideFlag_value xs zs hl).2, Nat.add_mul_mod_self_right, Nat.mod_eq_of_lt (addWideFlag_fst_value_lt hl)]

/-- The chain's carry-out is the sum's quotient by `2^(k*n)` (41_wide_adder R107). -/
theorem addWideFlag_snd_toNat :
    (addWideFlag xs zs).2.toNat = (wideValue xs + wideValue zs) / 2 ^ (k * xs.length) := by
  rw [(addWideFlag_value xs zs hl).2, Nat.add_mul_div_right _ _ (Nat.two_pow_pos _),
    Nat.div_eq_of_lt (addWideFlag_fst_value_lt hl), Nat.zero_add]

/-- The carry-out is set exactly when the sum reaches `2^(k*n)` (41_wide_adder R107). -/
theorem addWideFlag_snd_eq_one_iff :
    (addWideFlag xs zs).2 = 1#1 ↔ 2 ^ (k * xs.length) ≤ wideValue xs + wideValue zs := by
  rw [← Nat.one_le_div_iff (Nat.two_pow_pos _), ← addWideFlag_snd_toNat hl]
  obtain h | h := bit_cases (addWideFlag xs zs).2 <;> simp [h]

end Sum

/-- What a wide add of `n` limbs answers: the sum of its operands modulo `2^(32*n)`, and the carry of that sum. -/
theorem answer_addWideFlag (s : State) {n : Nat} {xs zs : List Limb} (hx : xs.length = n) (hz : zs.length = n) :
    s.answer (packLimbs (addWideFlag xs zs).1) (addWideFlag xs zs).2 =
      .next { s with
        y := BitVec.ofNat 128 ((wideValue xs + wideValue zs) % 2 ^ (32 * n))
        cout := BitVec.ofNat 1 ((wideValue xs + wideValue zs) / 2 ^ (32 * n)) } := by
  have hl := hx.trans hz.symm
  rw [State.answer_eq, packLimbs, ← hx, ← addWideFlag_fst_value hl, ← addWideFlag_snd_toNat hl, BitVec.ofNat_toNat,
    BitVec.setWidth_eq]

/-- No command reads the outputs that stand there (41_wide_adder R109). -/
theorem exec_ignores_outputs (i : Instr) (s : State) (y : Bus) (cout : Bit) :
    exec i { s with y := y, cout := cout } = exec i s := by
  obtain ⟨y', cout', hs⟩ := exec_answers i s
  rw [hs]
  exact exec_answer_of_ports hs rfl rfl rfl

theorem exec_addw2F_sum (s : State) : exec .addw2F s = .next { s with
    y := BitVec.ofNat 128 ((s.a.toNat % 2 ^ 64 + s.b.toNat % 2 ^ 64) % 2 ^ 64)
    cout := BitVec.ofNat 1 ((s.a.toNat % 2 ^ 64 + s.b.toNat % 2 ^ 64) / 2 ^ 64) } := by
  rw [← wideValue_limbsOf_two s.a, ← wideValue_limbsOf_two s.b]
  exact answer_addWideFlag s (n := 2) rfl rfl

theorem exec_addw4F_sum (s : State) : exec .addw4F s = .next { s with
    y := BitVec.ofNat 128 ((s.a.toNat + s.b.toNat) % 2 ^ 128)
    cout := BitVec.ofNat 1 ((s.a.toNat + s.b.toNat) / 2 ^ 128) } := by
  rw [← wideValue_limbsOf_four s.a, ← wideValue_limbsOf_four s.b]
  exact answer_addWideFlag s (n := 4) rfl rfl

end Sys2Proof.Machine
end

section
/-! The statements of 41_wide_adder. -/

open Sys2Proof Sys2Proof.Machine

/-- Settles O18: the carry after `j` limbs is what the chain of the first `j` limbs carries out. -/
theorem chainsCarryFromLimbToLimb : Obligations.ChainsCarryFromLimbToLimb := by
  intro k xs zs hl
  obtain ⟨hlenF, houtF, hlimbF⟩ := carryChain_zip_carries adcFlag hl 0#1
  obtain ⟨hlenE, houtE, hlimbE⟩ := carryChain_zip_carries adcEmul hl 0#1
  refine ⟨⟨carryAfter adcFlag (xs.zip zs) 0#1, rfl, hlenF, houtF, hlimbF⟩,
    carryAfter adcEmul (xs.zip zs) 0#1, rfl, hlenE, houtE, hlimbE, fun hpos => ?_⟩
  have hfirst := hlimbE 0 hpos
  rw [carryAfter_zero, adcEmul_carry_zero] at hfirst
  exact Prod.mk.inj hfirst

/-- Settles O19: the emulated chain is the flag-assisted one, which loses nothing of the sum. -/
theorem chainsComputeTheIntegerSum : Obligations.ChainsComputeTheIntegerSum := by
  intro k xs zs hk hl r hr
  have hflag : r = addWideFlag xs zs := by simpa [addWideEmul_eq_addWideFlag hk] using hr
  subst hflag
  exact ⟨addWideFlag_fst_value hl, addWideFlag_snd_toNat hl, addWideFlag_snd_eq_one_iff hl,
    (addWideFlag_value xs zs hl).2⟩

/-- Settles O21: the limbs on the ports stand for the operands, so the chain answers their sum and its carry. -/
theorem wideAddCommandsDriveSumAndFinalCarry : Obligations.WideAddCommandsDriveSumAndFinalCarry :=
  ⟨decode_encode_code .addw2F, decode_encode_code .addw2E, decode_encode_code .addw4F, decode_encode_code .addw4E,
    exec_ignores_outputs, fun s => ⟨⟨exec_addw2F_sum s, (exec_addw2E s).trans (exec_addw2F_sum s)⟩,
      exec_addw4F_sum s, (exec_addw4E s).trans (exec_addw4F_sum s)⟩⟩

end

section
/-! SUPPORT. The multiplier on the ports (42_widening_multiplier R119, R120): the joined pair is the product, and the
four word products of the lift are the half-products of the 64-bit operands. -/

namespace Sys2Proof.Machine

section JoinedProduct
variable {k : Nat} (hk : 2 ∣ k) (x z : BitVec k)
include hk

/-- Read as one integer, the pair of halves is the product (42_widening_multiplier R116). -/
theorem joinPair_widenMul_toNat : (joinPair (widenMul x z)).toNat = x.toNat * z.toNat := by
  rw [joinPair_toNat, widenMul_exact hk]

theorem joinPair_widenMul_eq_ofNat : joinPair (widenMul x z) = BitVec.ofNat (k + k) (x.toNat * z.toNat) := by
  rw [← joinPair_widenMul_toNat hk, BitVec.ofNat_toNat, BitVec.setWidth_eq]

end JoinedProduct

/-- Half-products are fixed by the integers they stand for. -/
theorem halfProducts_eq_of_toNat_eq {k : Nat} {p q : HalfProducts k} (hll : p.ll.toNat = q.ll.toNat)
    (hlh : p.lh.toNat = q.lh.toNat) (hhl : p.hl.toNat = q.hl.toNat) (hhh : p.hh.toNat = q.hh.toNat) : p = q := by
  cases p
  cases q
  exact (HalfProducts.mk.injEq ..).mpr ⟨BitVec.eq_of_toNat_eq hll, BitVec.eq_of_toNat_eq hlh,
    BitVec.eq_of_toNat_eq hhl, BitVec.eq_of_toNat_eq hhh⟩

section Lift
variable (x z : DWord)

theorem lowWord_toNat : (x.extractLsb' 0 32).toNat = x.toNat % 2 ^ 32 := by
  rw [BitVec.extractLsb'_toNat, Nat.shiftRight_zero]

theorem highWord_toNat : (x.extractLsb' 32 32).toNat = x.toNat / 2 ^ 32 := by
  rw [BitVec.extractLsb'_toNat, Nat.shiftRight_eq_div_pow, Nat.mod_eq_of_lt (high_half_lt (by decide) x)]

/-- The four half-products as the lift forms them, one word product each (42_widening_multiplier R120). -/
def wordProducts : HalfProducts 64 :=
  ⟨joinPair (widenMul (x.extractLsb' 0 32) (z.extractLsb' 0 32)),
   joinPair (widenMul (x.extractLsb' 0 32) (z.extractLsb' 32 32)),
   joinPair (widenMul (x.extractLsb' 32 32) (z.extractLsb' 0 32)),
   joinPair (widenMul (x.extractLsb' 32 32) (z.extractLsb' 32 32))⟩

theorem widenMulLift_eq_accumulate :
    widenMulLift x z = ((accumulate (wordProducts x z)).lo, (accumulate (wordProducts x z)).hi) := rfl

/-- A word product, joined, is the half-product it stands for: both are exact. -/
theorem wordProducts_eq_halfProducts : wordProducts x z = halfProducts x z := by
  have hdouble : 2 ∣ 64 := by decide
  have hword : 2 ∣ 32 := by decide
  apply halfProducts_eq_of_toNat_eq
  · rw [halfProducts_ll_toNat hdouble, wordProducts, joinPair_widenMul_toNat hword, lowWord_toNat, lowWord_toNat]
  · rw [halfProducts_lh_toNat hdouble, wordProducts, joinPair_widenMul_toNat hword, lowWord_toNat, highWord_toNat]
  · rw [halfProducts_hl_toNat hdouble, wordProducts, joinPair_widenMul_toNat hword, highWord_toNat, lowWord_toNat]
  · rw [halfProducts_hh_toNat hdouble, wordProducts, joinPair_widenMul_toNat hword, highWord_toNat, highWord_toNat]

/-- The lift accumulates the same half-products, so it is the same function (42_widening_multiplier R120). -/
theorem widenMulLift_eq_widenMul : widenMulLift x z = widenMul x z := by
  rw [widenMulLift_eq_accumulate, wordProducts_eq_halfProducts, widenMul]

end Lift

end Sys2Proof.Machine
end

section
/-! The statements of 42_widening_multiplier. -/

open Sys2Proof Sys2Proof.Machine

/-- Settles O26: the pair WMUL joins on the port is the product of the two low words. -/
theorem wmulCommandAnswersTheProduct : Obligations.WmulCommandAnswersTheProduct := by
  refine ⟨decode_encode_code .wmul, fun s => ?_⟩
  simp only [exec, execWmul, State.answer_eq, zext128_eq_ofNat, joinPair_widenMul_toNat (show 2 ∣ 32 by decide),
    low32_toNat]

/-- Settles O27: the pair WMULD joins is the product of the two low double words, and the lift accumulates the same
half-products. -/
theorem wmuldCommandAnswersTheProductAndLifts : Obligations.WmuldCommandAnswersTheProductAndLifts := by
  refine ⟨decode_encode_code .wmuld, fun s => ?_, widenMulLift_eq_widenMul⟩
  simp only [exec, execWmuld, State.answer_eq, joinPair_widenMul_eq_ofNat (show 2 ∣ 64 by decide), low64_toNat]

end

section
/-! SUPPORT. The field commands on the ports (43_goldilocks R131 to R141): residues over the integers, CANON as the
choice of one pattern per residue, and the pair that FMUL hands from the multiplier to the reducer. -/

namespace Sys2Proof.Machine

theorem EPS_add_P : Config.EPS.toNat + Config.P.toNat = 2 ^ 64 := rfl

/-- Over the integers too, multiples of `P` keep the residue. -/
theorem emod_P_of_add_mul {m n : Int} (q : Int) (h : m + Config.P.toNat * q = n) :
    n % Config.P.toNat = m % Config.P.toNat := by
  rw [← h, Int.add_mul_emod_self_left]

section Corrections
variable {x z : DWord}

/-- An addition that wrapped lost `2^64` of the true sum (43_goldilocks R132). -/
theorem addc_of_wrap (h : (addc x z).2 = 1#1) : (addc x z).1.toNat + 2 ^ 64 = x.toNat + z.toNat := by
  simpa [h] using addc_exact x z

/-- A subtraction that wrapped gained `2^64` over the true difference (43_goldilocks R132). -/
theorem subb_of_wrap (h : (subb x z).2 = 1#1) : (subb x z).1.toNat + z.toNat = x.toNat + 2 ^ 64 := by
  simpa [h] using subb_exact x z

/-- As `2^64 = P + EPS`, adding `EPS` where `2^64` was lost takes `P` away (43_goldilocks R132). -/
theorem add_EPS_congruentModP {s t : Nat} (h : s + 2 ^ 64 = t) : CongruentModP (s + Config.EPS.toNat) t :=
  congruentModP_of_add_mul 1 (by rw [Nat.mul_one, Nat.add_assoc, EPS_add_P, h])

/-- As `2^64 = P + EPS`, subtracting `EPS` where `2^64` was gained adds `P` (43_goldilocks R132). -/
theorem sub_EPS_emod_P {d m n : Nat} (h : d + n = m + 2 ^ 64) :
    ((d : Int) - Config.EPS.toNat) % Config.P.toNat = ((m : Int) - n) % Config.P.toNat :=
  emod_P_of_add_mul 1 (by rw [P_toNat, EPS_toNat]; omega)

end Corrections

section Canonicalize
variable (x z : DWord)

theorem canonicalize_canonical : Canonical (canonicalize x) := by
  rw [Canonical, canonicalize_toNat]
  exact Nat.mod_lt _ (by decide)

theorem canonicalize_of_canonical {x : DWord} (h : Canonical x) : canonicalize x = x :=
  BitVec.eq_of_toNat_eq (by rw [canonicalize_toNat, Nat.mod_eq_of_lt h])

/-- CANON picks one pattern per residue (43_goldilocks R138). -/
theorem congruentModP_iff_canonicalize_eq :
    CongruentModP x.toNat z.toNat ↔ canonicalize x = canonicalize z := by
  rw [CongruentModP, ← canonicalize_toNat, ← canonicalize_toNat, BitVec.toNat_inj]

end Canonicalize

section Pair
variable (p : DWord × DWord)

/-- The low half of the port is the pair's first part (20_memory R53). -/
theorem low64_joinPair : low64 (joinPair p) = p.1 := by
  have hlt := p.1.isLt
  apply BitVec.eq_of_toNat_eq
  rw [low64_toNat, joinPair_toNat, Nat.add_mul_mod_self_right, Nat.mod_eq_of_lt hlt]

/-- The high half of the port is the pair's second part (20_memory R53). -/
theorem high64_joinPair : high64 (joinPair p) = p.2 := by
  have hlt := p.1.isLt
  apply BitVec.eq_of_toNat_eq
  rw [high64_toNat, joinPair_toNat, Nat.add_mul_div_right _ _ (Nat.two_pow_pos 64), Nat.div_eq_of_lt hlt,
    Nat.zero_add]

end Pair

/-- FMUL's function is the reducer on the two halves of the product as it lies on a port (43_goldilocks R141). -/
theorem fieldMul_eq_reduce_joinPair (x z : DWord) :
    fieldMul x z = reduce (low64 (joinPair (widenMul x z))) (high64 (joinPair (widenMul x z))) := by
  rw [low64_joinPair, high64_joinPair, fieldMul]

/-- The greatest 64-bit pattern, which is not canonical, on port `a`, beside a second operand. -/
def withTopPattern (b : Bus) : State := { State.reset with a := 0xFFFFFFFFFFFFFFFF#128, b := b }

end Sys2Proof.Machine
end

section
/-! The statements of 43_goldilocks. -/

open Sys2Proof Sys2Proof.Machine

/-- Settles O29: with `hi = hi_lo + hi_hi * 2^32` the two sides differ by `P * (hi_lo + hi_hi * (2^32 + 1))`, as
`2^96 + 1 = P * (2^32 + 1)`. -/
theorem goldilocksCongruences : Obligations.GoldilocksCongruences := by
  have hcube : CongruentModP 0 (2 ^ 96 + 1) := congruentModP_of_add_mul (2 ^ 32 + 1) rfl
  refine ⟨(congruentModP_of_add_mul 1 rfl).symm, hcube.symm, fun hi => ?_⟩
  have hsplit := Nat.mod_add_div hi.toNat (2 ^ 32)
  rw [lowWord_toNat, highWord_toNat]
  refine emod_P_of_add_mul (hi.toNat % 2 ^ 32 + hi.toNat / 2 ^ 32 * (2 ^ 32 + 1) : Nat) ?_
  rw [P_toNat, EPS_toNat]
  omega

/-- Settles O30: a wrap is worth `2^64 = P + EPS`, so the correction leaves a multiple of `P`. -/
theorem correctionsRestoreTheResidue : Obligations.CorrectionsRestoreTheResidue := fun _ _ =>
  ⟨fun hwrap => ⟨addc_of_wrap hwrap, add_EPS_congruentModP (addc_of_wrap hwrap)⟩,
    fun hwrap => ⟨subb_of_wrap hwrap, sub_EPS_emod_P (subb_of_wrap hwrap)⟩⟩

/-- Settles O31: the reducer's representative of the two halves of port `a`, repair by repair. -/
theorem redCommandAnswersItsRepresentative : Obligations.RedCommandAnswersItsRepresentative := by
  refine ⟨decode_encode_code .red, fun s => ?_⟩
  simp only [exec, execRed, State.answer_eq, zext128_eq_ofNat, reduce_toNat, redWires_t0c_toNat,
    redWires_t1_toNat, low64_toNat, high64_toNat]

/-- Settles O33: canonicalising is the remainder by `P`, which canonicalising leaves alone. -/
theorem canonCommandAnswersTheResidue : Obligations.CanonCommandAnswersTheResidue := by
  refine ⟨decode_encode_code .canon, fun s => ?_, fun x =>
    ⟨canonicalize_canonical x, canonicalize_of_canonical (canonicalize_canonical x)⟩⟩
  simp only [exec, execCanon, State.answer_eq, zext128_eq_ofNat, canonicalize_toNat, low64_toNat]

/-- Settles O34: CANON picks one pattern per residue; reducing the greatest pattern, adding 0 to it and multiplying
it by 1 leave it as it is, above `P`. -/
theorem canonDecidesEqualityOfResidues : Obligations.CanonDecidesEqualityOfResidues := by
  refine ⟨congruentModP_iff_canonicalize_eq, ?_⟩
  simp only [List.forall_mem_cons, Canonical, Nat.not_lt]
  exact ⟨⟨withTopPattern 0, _, rfl, by decide⟩, ⟨withTopPattern 0, _, rfl, by decide⟩,
    ⟨withTopPattern 1, _, rfl, by decide⟩, List.forall_mem_nil _⟩

/-- Settles O35: FADD's representative of the two low double words, correction by correction. -/
theorem faddCommandAnswersItsRepresentative : Obligations.FaddCommandAnswersItsRepresentative := by
  refine ⟨decode_encode_code .fadd, fun s => ?_⟩
  simp only [exec, execFadd, State.answer_eq, zext128_eq_ofNat, fieldAdd_toNat, low64_toNat]

/-- Settles O37: WMULD leaves the pair on `y` as RED takes it from `a`, so RED answers FMUL's function. -/
theorem fmulCommandIsWmuldThenRed : Obligations.FmulCommandIsWmuldThenRed := by
  refine ⟨decode_encode_code .fmul, fun s => ⟨_, _, rfl, ?_, rfl, ?_⟩⟩
  · rw [joinPair_widenMul_toNat (by decide), low64_toNat, low64_toNat]
  · simp only [exec, execFmul, State.answer_eq, fieldMul_eq_reduce_joinPair]

end

section
/-! SUPPORT. Every step as a transition of the whole state: what keeps the outputs the answer to the inputs, and what
a line that issues a transaction, or stops, makes of a step. -/

namespace Sys2Proof.Machine

/-- The outputs stay the answer to the inputs as long as no port changes. -/
theorem outputsFollowInputs_of_ports {s t : State} (h : OutputsFollowInputs s) (hcmd : t.cmd = s.cmd)
    (ha : t.a = s.a) (hb : t.b = s.b) (hcin : t.cin = s.cin) (hy : t.y = s.y) (hcout : t.cout = s.cout) :
    OutputsFollowInputs t := by
  obtain ⟨i, hd, he⟩ := h
  have hans : exec i s = s.answer t.y t.cout := by rw [he, hy, hcout]; rfl
  exact ⟨i, hcmd ▸ hd, exec_answer_of_ports hans ha.symm hb.symm hcin.symm⟩

section Line
variable {s : State} {line : Line} {rest : List Line} (hp : s.program = line :: rest)
include hp

theorem step_of_act_error {r : Refusal} (ha : line.act Config.addWideStrategy s.vars = .error r) :
    step s = .refused r := by
  rw [step_cons hp]
  simp only [runLine, ha]

theorem step_of_act_direct {m : VarMap} (ha : line.act Config.addWideStrategy s.vars = .ok (.direct m)) :
    step s = .next { s with vars := m, program := rest } := by
  rw [step_cons hp]
  simp only [runLine, ha]

theorem step_of_act_assignFree {n : VarName} {w : Nat}
    (ha : line.act Config.addWideStrategy s.vars = .ok (.assignFree n w)) :
    step s = .next (({ s with program := rest } : State).assignFree n w) := by
  rw [step_cons hp]
  simp only [runLine, ha]

theorem step_of_act_issue {t : Issue} (ha : line.act Config.addWideStrategy s.vars = .ok (.issue t)) :
    step s = transact t { s with program := rest } := by
  rw [step_cons hp]
  simp only [runLine, ha]

end Line

theorem encode_toNat_lt (i : Instr) : (encode i).toNat < 0xC := by
  cases i <;> decide

/-- A line of the assembler form issues a command's transaction (30_encoding R77). -/
theorem issueLine_ok {strategy : Strategy} {m : VarMap} {mn : Mnemonic} {dests : List Dest} {srcs : List Source}
    {t : Issue} (h : issueLine strategy m mn dests srcs = .ok t) : ∃ i ops, t = issueOf i ops dests := by
  rw [issueLine] at h
  split at h
  · cases h
  · split at h
    · cases h
    · cases h
      exact ⟨_, _, rfl⟩

/-- What an assembled line that acts can do: issue what `issueLine` assembles. -/
theorem Line.act_txn_ok {strategy : Strategy} {m : VarMap} {mn : Mnemonic} {dests : List Dest} {srcs : List Source}
    {act : HostAct} (h : (Line.txn mn dests srcs).act strategy m = .ok act) :
    ∃ t, issueLine strategy m mn dests srcs = .ok t ∧ act = .issue t := by
  rw [Line.act] at h
  split at h
  · cases ht : issueLine strategy m mn dests srcs with
    | error e => simp [ht, Except.map] at h
    | ok t =>
      simp only [ht, Except.map, Except.ok.injEq] at h
      exact ⟨t, rfl, h.symm⟩
  · cases h

end Sys2Proof.Machine
end

section
/-! The statements about every step. -/

open Sys2Proof Sys2Proof.Machine

/-- Settles O43: a directive leaves the ports alone, and a transaction leaves on `y` and `cout` what its command
answers to the inputs it presents, which copying out does not touch. -/
theorem stepKeepsOutputsFollowingInputs : Obligations.StepKeepsOutputsFollowingInputs := by
  intro s s' h hstep
  obtain ⟨line, rest, -, ⟨m, -, rfl⟩ | ⟨n, w, -, rfl⟩ | ⟨t, i, y, cout, -, hd, he, rfl⟩⟩ := step_next hstep
  · exact outputsFollowInputs_of_ports h rfl rfl rfl rfl rfl rfl
  · exact outputsFollowInputs_of_ports h rfl rfl rfl rfl rfl rfl
  · exact ⟨i, hd, exec_answer_of_ports he rfl rfl rfl⟩

/-- Settles O44: a step changes the host's map by assignments only, each of which keeps the canonical form. -/
theorem stepKeepsHostMapCanonical : Obligations.StepKeepsHostMapCanonical := by
  intro s s' h hstep
  obtain ⟨line, rest, -, ⟨m, ha, rfl⟩ | ⟨n, w, -, rfl⟩ | ⟨t, i, y, cout, -, -, -, rfl⟩⟩ := step_next hstep
  · obtain rfl | ⟨n, v, rfl⟩ := Line.act_direct ha
    · exact h
    · exact varsWf_assignVar n v h
  · exact varsWf_assignVar n _ h
  · exact varsWf_copyOut t.copies h

/-- Settles O10: the code alone decides whether the transaction is answered or refused, and an assembled line carries
the code of a command. -/
theorem issuedTransactionStopsOnlyOnReservedCode : Obligations.IssuedTransactionStopsOnlyOnReservedCode := by
  intro s line rest t hp ha
  rw [SafeStep, step_of_act_issue hp ha]
  refine ⟨fun hlt => ?_, transact_of_reserved _, ?_⟩
  · obtain ⟨i, hd⟩ := exists_decode_of_lt hlt
    obtain ⟨y, cout, he⟩ := exec_answers i (({ s with program := rest } : State).present t)
    exact ⟨_, transact_answers hd he⟩
  · rintro ⟨mn, dests, srcs, rfl⟩
    obtain ⟨u, hu, hact⟩ := Line.act_txn_ok ha
    cases hact
    obtain ⟨i, ops, rfl⟩ := issueLine_ok hu
    rw [issueOf_cmd]
    exact encode_toNat_lt i

end

section
/-! SUPPORT. One limb and its chains once more (40_limb_adder R95, 41_wide_adder R110, 43_goldilocks R133): the carries
of an emulated step, the two ADC commands as one, and a limb list as the integer it stands for. -/

namespace Sys2Proof.Machine

/-- The OR of two bits that exclude each other is their XOR. -/
theorem bit_or_eq_xor_of_exclusive {c d : Bit} (h : c.toNat + d.toNat ≤ 1) : c ||| d = c ^^^ d := by
  revert c d
  decide

/-- A wrapped sum lies at least one below the operand, so at most `2^k - 2` (40_limb_adder R95). -/
theorem adcWires_t_le {k : Nat} {x z : BitVec k} {ci : Bit} (h : (adcWires x z ci).c0 = 1#1) :
    (adcWires x z ci).t.toNat ≤ 2 ^ k - 2 := by
  have hlt : (adcWires x z ci).t.toNat < x.toNat := (ltu_eq_one_iff _ _).1 h
  have hx := x.isLt
  omega

/-- Both ADC commands are the flag-assisted one (40_limb_adder R94). -/
theorem exec_adc {i : Instr} (hi : i ∈ [Instr.adcF, Instr.adcE]) (s : State) : exec i s = exec .adcF s := by
  obtain rfl | rfl : i = .adcF ∨ i = .adcE := by simpa using hi
  · rfl
  · exact exec_adcE s

/-- Whatever the strategy, an ADC that answers loses nothing of the sum of its operands (40_limb_adder R90). -/
theorem exec_adc_exact {i : Instr} (hi : i ∈ [Instr.adcF, Instr.adcE]) {s t : State} (h : exec i s = .next t) :
    t.y.toNat + t.cout.toNat * 2 ^ 32 = s.a.toNat % 2 ^ 32 + s.b.toNat % 2 ^ 32 + s.cin.toNat := by
  obtain ⟨u, hu, hsum⟩ := exec_adcF_exact s
  rw [exec_adc hi, hu] at h
  cases h
  exact hsum

/-- Limb lists of one length are fixed by the integer they stand for (20_memory R51). -/
theorem wideValue_inj {k : Nat} {xs zs : List (BitVec k)} (hl : xs.length = zs.length)
    (h : wideValue xs = wideValue zs) : xs = zs := by
  induction xs generalizing zs with
  | nil => exact (List.length_eq_zero_iff.1 hl.symm).symm
  | cons x xs ih =>
    cases zs with
    | nil => cases hl
    | cons z zs =>
      rw [wideValue_cons, wideValue_cons] at h
      have hlow := congrArg (· % 2 ^ k) h
      have hhigh := congrArg (· / 2 ^ k) h
      simp only [Nat.add_mul_mod_self_left, Nat.mod_eq_of_lt x.isLt, Nat.mod_eq_of_lt z.isLt] at hlow
      simp only [Nat.add_mul_div_left _ _ (Nat.two_pow_pos k), Nat.div_eq_of_lt x.isLt, Nat.div_eq_of_lt z.isLt,
        Nat.zero_add] at hhigh
      rw [BitVec.eq_of_toNat_eq hlow, ih (Nat.succ.inj hl) hhigh]

/-- The two words of a 64-bit value, low word first. -/
def halves (v : DWord) : List Limb := [v.extractLsb' 0 32, v.extractLsb' 32 32]

@[simp] theorem halves_length (v : DWord) : (halves v).length = 2 := rfl

@[simp] theorem wideValue_halves (v : DWord) : wideValue (halves v) = v.toNat := by
  rw [halves, wideValue_cons, wideValue_cons, wideValue_nil, lowWord_toNat, highWord_toNat]
  exact Nat.mod_add_div v.toNat (2 ^ 32)

/-- The 64-bit helper is the two-limb add (43_goldilocks R133): both sums are the integer sum modulo `2^64`, and both
carries are set when it reaches `2^64`. -/
theorem addWideFlag_halves (x z : DWord) :
    addWideFlag (halves x) (halves z) = (halves (addc x z).1, (addc x z).2) := by
  have hl : (halves x).length = (halves z).length := rfl
  refine Prod.ext (wideValue_inj (addWideFlag_value _ _ hl).1 ?_) (bit_eq_of_eq_one_iff ?_)
  · simp [addWideFlag_fst_value hl, addc]
  · simp [addWideFlag_snd_eq_one_iff hl, addc, ltu_addK_eq_one_iff]

end Sys2Proof.Machine
end

section
/-! The statements the spec derives of limbs and chains. -/

open Sys2Proof Sys2Proof.Machine

/-- Settles O14: the two carries add up to at most 1; the two witnesses are evaluated. -/
theorem emulatedCarriesExcludeEachOther : Obligations.EmulatedCarriesExcludeEachOther := by
  refine ⟨fun k x z ci hk => ?_, by decide, by decide⟩
  have hle := adcWires_carries_le_one hk x z ci
  refine ⟨fun ⟨h0, h1⟩ => ?_, bit_or_eq_xor_of_exclusive hle, bit_or_toNat_of_exclusive hle, adcWires_t_le⟩
  rw [h0, h1] at hle
  exact absurd hle (by decide)

/-- Settles O17: each ADC loses nothing of its own sum, and the carry between the two cancels. -/
theorem chainedAdcAddsTwoLimbsUnderAnyMix : Obligations.ChainedAdcAddsTwoLimbsUnderAnyMix := by
  intro i j s t u hi hj hcin ht x z hu
  have hlow := exec_adc_exact hi ht
  have hhigh := exec_adc_exact hj hu
  rw [hcin, BitVec.toNat_zero] at hlow
  linear_combination -hlow - 2 ^ 32 * hhigh

/-- Settles O20: the limb steps are one function, so the chains and the commands are. -/
theorem wideAdderVariantsAgree : Obligations.WideAdderVariantsAgree :=
  ⟨fun _ xs zs hk => addWideEmul_eq_addWideFlag hk xs zs, fun s => ⟨exec_addw2E s, exec_addw4E s⟩⟩

/-- Settles O22: the two-limb chain and the 64-bit helper have the same sum and carry. -/
theorem sixtyFourBitAddIsTwoLimbAdd : Obligations.SixtyFourBitAddIsTwoLimbAdd := fun x z =>
  ⟨addWideFlag_halves x z, (addWideEmul_eq_addWideFlag (by decide) _ _).trans (addWideFlag_halves x z)⟩

end

section
/-! SUPPORT. The two halves of a widening product as quotient and remainder (42_widening_multiplier R116, R122). -/

namespace Sys2Proof.Machine

section Halves
variable {k : Nat} (hk : 2 ∣ k) (x z : BitVec k)
include hk

theorem widenMul_fst_toNat : (widenMul x z).1.toNat = x.toNat * z.toNat % 2 ^ k := by
  rw [← widenMul_exact hk, Nat.add_mul_mod_self_right, Nat.mod_eq_of_lt (widenMul x z).1.isLt]

theorem widenMul_snd_toNat : (widenMul x z).2.toNat = x.toNat * z.toNat / 2 ^ k := by
  rw [← widenMul_exact hk, Nat.add_mul_div_right _ _ (Nat.two_pow_pos k),
    Nat.div_eq_of_lt (widenMul x z).1.isLt, Nat.zero_add]

theorem widenMul_comm : widenMul x z = widenMul z x :=
  Prod.ext
    (BitVec.eq_of_toNat_eq (by rw [widenMul_fst_toNat hk, widenMul_fst_toNat hk, Nat.mul_comm]))
    (BitVec.eq_of_toNat_eq (by rw [widenMul_snd_toNat hk, widenMul_snd_toNat hk, Nat.mul_comm]))

theorem widenMul_zero_left : widenMul 0 z = (0, 0) :=
  Prod.ext (BitVec.eq_of_toNat_eq (by simp [widenMul_fst_toNat hk]))
    (BitVec.eq_of_toNat_eq (by simp [widenMul_snd_toNat hk]))

theorem widenMul_of_eq_zero {x z : BitVec k} (h : x = 0 ∨ z = 0) : widenMul x z = (0, 0) := by
  obtain rfl | rfl := h
  · exact widenMul_zero_left hk z
  · rw [widenMul_comm hk, widenMul_zero_left hk]

/-- The high half is 0 exactly when the product fits the low half (42_widening_multiplier R122). -/
theorem widenMul_snd_eq_zero_iff : (widenMul x z).2 = 0 ↔ x.toNat * z.toNat < 2 ^ k := by
  rw [← BitVec.toNat_inj, widenMul_snd_toNat hk]
  exact Nat.div_eq_zero_iff_lt (Nat.two_pow_pos k)

end Halves

/-- A product of two numbers below `m + 2` reaches `m * (m + 2)` only where the first is the greatest. -/
theorem eq_of_mul_reaches {m x z : Nat} (hm : 0 < m) (hx : x < m + 2) (hz : z < m + 2)
    (h : m * (m + 2) ≤ x * z) : x = m + 1 := by
  by_contra hne
  have hle : x * z ≤ m * (m + 1) := Nat.mul_le_mul (by omega) (by omega)
  have hlt : m * (m + 1) < m * (m + 2) := Nat.mul_lt_mul_of_pos_left (by omega) hm
  exact absurd (h.trans hle) (Nat.not_le.2 hlt)

/-- From two bits on `2^k - 2` is a positive number. -/
theorem exists_two_pow_eq_add_two {k : Nat} (h2 : 2 ≤ k) : ∃ m, 0 < m ∧ 2 ^ k = m + 2 := by
  have hpow : 2 ^ 2 ≤ 2 ^ k := Nat.pow_le_pow_right (by decide) h2
  exact ⟨2 ^ k - 2, by omega, by omega⟩

section Greatest
variable {k : Nat} (hk : 2 ∣ k) (h2 : 2 ≤ k) (x z : BitVec k)
include hk h2

/-- The high half is at most `2^k - 2` (42_widening_multiplier R122). -/
theorem widenMul_snd_le : (widenMul x z).2.toNat ≤ 2 ^ k - 2 := by
  have hexact := widenMul_exact hk x z
  have hx := x.isLt
  have hz := z.isLt
  obtain ⟨m, -, hpow⟩ := exists_two_pow_eq_add_two h2
  rw [hpow] at hexact hx hz ⊢
  have hle : x.toNat * z.toNat ≤ (m + 1) * (m + 1) := Nat.mul_le_mul (by omega) (by omega)
  have hlt : (widenMul x z).2.toNat * (m + 2) < (m + 1) * (m + 2) := by linarith
  have hhi := Nat.lt_of_mul_lt_mul_right hlt
  omega

/-- Only the greatest operands have the greatest high half, and then the low half is 1 (42_widening_multiplier
R122). -/
theorem widenMul_of_snd_greatest (h : (widenMul x z).2.toNat = 2 ^ k - 2) :
    (widenMul x z).1.toNat = 1 ∧ x.toNat = 2 ^ k - 1 ∧ z.toNat = 2 ^ k - 1 := by
  have hexact := widenMul_exact hk x z
  have hx := x.isLt
  have hz := z.isLt
  obtain ⟨m, hm, hpow⟩ := exists_two_pow_eq_add_two h2
  rw [hpow] at h hexact hx hz ⊢
  rw [h, Nat.add_sub_cancel] at hexact
  have hreach : m * (m + 2) ≤ x.toNat * z.toNat := by omega
  have hxmax : x.toNat = m + 1 := eq_of_mul_reaches hm hx hz hreach
  have hzmax : z.toNat = m + 1 := eq_of_mul_reaches hm hz hx (by rwa [Nat.mul_comm z.toNat])
  rw [hxmax, hzmax] at hexact
  exact ⟨by linarith, by omega, by omega⟩

end Greatest

end Sys2Proof.Machine
end

section
/-! The statements the spec derives of the multiplier. -/

open Sys2Proof Sys2Proof.Machine

/-- Settles O23: the accumulation is exact, so the halves are the remainder and the quotient. -/
theorem widenMulGivesTheExactProduct : Obligations.WidenMulGivesTheExactProduct := by
  intro h x z
  have hk : 2 ∣ 2 * h := Nat.dvd_mul_right 2 h
  exact ⟨widenMul_exact hk x z, widenMul_fst_toNat hk x z, widenMul_snd_toNat hk x z⟩

/-- Settles O24: wire by wire, for halves of `h` bits. -/
theorem accumulationLosesNoBit : Obligations.AccumulationLosesNoBit := by
  intro h x z
  have hk : 2 ∣ 2 * h := Nat.dvd_mul_right 2 h
  have hhalf : 2 * h / 2 = h := Nat.mul_div_cancel_left h (by decide)
  have hll := halfProducts_ll_toNat hk x z
  have hlh := halfProducts_lh_toNat hk x z
  have hhl := halfProducts_hl_toNat hk x z
  have hhh := halfProducts_hh_toNat hk x z
  have hsh := accumulate_sh hk (halfProducts x z)
  have hhi := accumulate_hi hk x z
  rw [hiSum] at hhi
  rw [hhalf] at hll hlh hhl hhh hsh hhi
  exact ⟨hll, hlh, hhl, hhh, accumulate_cross _, hsh, accumulate_lo _, hhi⟩

/-- Settles O25: laws of the quotient and the remainder of the product. -/
theorem widenMulLaws : Obligations.WidenMulLaws := by
  intro h x z hh
  have hk : 2 ∣ 2 * h := Nat.dvd_mul_right 2 h
  have h2 : 2 ≤ 2 * h := Nat.le_mul_of_pos_right 2 hh
  exact ⟨widenMul_comm hk x z, widenMul_of_eq_zero hk, widenMul_snd_eq_zero_iff hk x z, widenMul_snd_le hk h2 x z,
    widenMul_of_snd_greatest hk h2 x z⟩

end

section
/-! SUPPORT. The field functions (43_goldilocks R135, R140 to R143): the corrections' bounds, and residues of sums
read off the canonical pattern. -/

namespace Sys2Proof.Machine

section Reduce
variable {lo hi : DWord}

/-- A subtraction of 32 bits that wrapped leaves more than `EPS`, so the repair does not wrap (43_goldilocks R135). -/
theorem EPS_le_redWires_t0 (hb : (redWires lo hi).b = 1#1) : Config.EPS.toNat ≤ (redWires lo hi).t0.toNat := by
  have hsub := redWires_t0_exact lo hi
  have hhi := hi.isLt
  rw [hb, BitVec.toNat_ofNat] at hsub
  rw [EPS_toNat]
  omega

/-- After an addition that wrapped there is room for `EPS`, as `t1` is a 32-bit multiple of `EPS`
(43_goldilocks R135). -/
theorem redWires_t2_add_EPS_lt (hc : (redWires lo hi).c = 1#1) :
    (redWires lo hi).t2.toNat + Config.EPS.toNat < 2 ^ 64 := by
  have hsum := redWires_t2_exact lo hi
  have ht0c := (redWires lo hi).t0c.isLt
  rw [hc, BitVec.toNat_ofNat, redWires_t1_toNat, EPS_toNat] at hsum
  rw [EPS_toNat]
  omega

end Reduce

/-- Every pair of corrections occurs (43_goldilocks R135). -/
theorem exists_redWires_corrections (b c : Bit) :
    ∃ lo hi : DWord, (redWires lo hi).b = b ∧ (redWires lo hi).c = c := by
  obtain rfl | rfl := bit_cases b <;> obtain rfl | rfl := bit_cases c
  · exact ⟨0#64, 0#64, by decide⟩
  · exact ⟨0xFFFFFFFFFFFFFFFF#64, 1#64, by decide⟩
  · exact ⟨0#64, 0x100000000#64, by decide⟩
  · exact ⟨0#64, 0xFFFFFFFFFFFFFFFF#64, by decide⟩

theorem fieldAdd_comm (x z : DWord) : fieldAdd x z = fieldAdd z x :=
  BitVec.eq_of_toNat_eq (by rw [fieldAdd_toNat, fieldAdd_toNat, Nat.add_comm])

/-- The second correction of FADD takes two patterns above `P`, and does not wrap (43_goldilocks R140). -/
theorem faddWires_second_correction {x z : DWord} (hc : (faddWires x z).c1 = 1#1) :
    (faddWires x z).s1.toNat + Config.EPS.toNat < 2 ^ 64 ∧ Config.P.toNat < x.toNat ∧ Config.P.toNat < z.toNat := by
  have hx := x.isLt
  have hz := z.isLt
  have hs := (faddWires x z).s.isLt
  have hc0 := bit_toNat_le (faddWires x z).c0
  have hsum := faddWires_s_exact x z
  have hfirst := faddWires_s1_exact x z
  rw [hc, BitVec.toNat_ofNat, EPS_toNat] at hfirst
  rw [EPS_toNat, P_toNat]
  omega

theorem fieldMul_comm (x z : DWord) : fieldMul x z = fieldMul z x := by
  rw [fieldMul, widenMul_comm (by decide), fieldMul]

theorem canonical_zero : Canonical 0 := by
  rw [Canonical]
  decide

theorem canonical_EPS : Canonical Config.EPS := by
  rw [Canonical]
  decide

/-- The canonical form of a field sum is the canonical pattern of the sum's residue. -/
theorem canonicalize_fieldAdd {x z r : DWord} (hr : Canonical r) (h : CongruentModP (x.toNat + z.toNat) r.toNat) :
    canonicalize (fieldAdd x z) = r := by
  rw [← canonicalize_of_canonical hr, ← congruentModP_iff_canonicalize_eq]
  exact (fieldAdd_congruent x z).trans h

/-- `P` less the canonical form of a pattern is a negation of the pattern, between 1 and `P` (43_goldilocks R143). -/
theorem negation_bounds (m : DWord) :
    1 ≤ Config.P.toNat - (canonicalize m).toNat ∧ Config.P.toNat - (canonicalize m).toNat ≤ Config.P.toNat := by
  have hcanon : (canonicalize m).toNat < Config.P.toNat := canonicalize_canonical m
  omega

theorem add_negation_congruent (m : DWord) :
    CongruentModP (m.toNat + (BitVec.ofNat 64 (Config.P.toNat - (canonicalize m).toNat)).toNat) 0 := by
  have hle := (negation_bounds m).2
  have hfits : (BitVec.ofNat 64 (Config.P.toNat - (canonicalize m).toNat)).toNat =
      Config.P.toNat - (canonicalize m).toNat := by
    rw [BitVec.toNat_ofNat, Nat.mod_eq_of_lt (by rw [P_toNat] at *; omega)]
  rw [hfits, canonicalize_toNat, CongruentModP, P_toNat]
  omega

/-- The wrapped `P - m` completes a pattern `m` up to `P` to `P` (43_goldilocks R143). -/
theorem add_subK_P_of_le {m : DWord} (h : m.toNat ≤ Config.P.toNat) :
    m.toNat + (subK Config.P m).toNat = Config.P.toNat := by
  rw [subK_toNat_cases, if_pos h]
  omega

/-- Above `P` the wrapped `P - m` completes `m` to `P + 2^64`, so the sum has the residue `EPS` (43_goldilocks R143). -/
theorem add_subK_P_of_lt {m : DWord} (h : Config.P.toNat < m.toNat) :
    m.toNat + (subK Config.P m).toNat = Config.P.toNat + 2 ^ 64 := by
  have hm := m.isLt
  rw [subK_toNat_cases, if_neg (Nat.not_le.2 h)]
  omega

/-- So the literal form of the round trip gives `EPS` for a product above `P` (43_goldilocks R143). -/
theorem canonicalize_fieldAdd_subK_P_of_lt {m : DWord} (h : Config.P.toNat < m.toNat) :
    canonicalize (fieldAdd m (subK Config.P m)) = Config.EPS :=
  canonicalize_fieldAdd canonical_EPS (by rw [add_subK_P_of_lt h]; rfl)

end Sys2Proof.Machine
end

section
/-! The statements the spec derives of the field functions. -/

open Sys2Proof Sys2Proof.Machine

/-- Settles O32: the residue is kept at every step, and the wraps are bounded by the 32 bits of `hi_hi` and
`hi_lo`. -/
theorem reduceIsCongruentAndItsCorrectionsNeverWrap : Obligations.ReduceIsCongruentAndItsCorrectionsNeverWrap :=
  ⟨fun lo hi => ⟨reduce_congruent lo hi, canonicalize_canonical _, EPS_le_redWires_t0, redWires_t1_toNat lo hi,
    redWires_t2_add_EPS_lt⟩, exists_redWires_corrections⟩

/-- Settles O36, by the exact representative and the exact wires. -/
theorem fieldAddIsCongruentAndCommutative : Obligations.FieldAddIsCongruentAndCommutative := fun x z =>
  ⟨fieldAdd_congruent x z, fieldAdd_comm x z, faddWires_second_correction⟩

/-- Settles O38: the residue of the exact product, which in the scenario is its own canonical form. -/
theorem fieldMulIsCongruentToTheProduct : Obligations.FieldMulIsCongruentToTheProduct :=
  ⟨fun x z => ⟨fieldMul_congruent x z, fieldMul_comm x z⟩,
    (canonicalize_toNat _).trans (fieldMul_congruent 0x00000000FFFFFFFF#64 2#64)⟩

/-- Settles O39: `m` and its negation add up to a multiple of `P`; the wrapped `P - m` leaves `2^64`, that is `EPS`,
where `m` is above `P`. -/
theorem fieldRoundTripIsZero : Obligations.FieldRoundTripIsZero := by
  refine ⟨fun a b => ⟨negation_bounds _, canonicalize_fieldAdd canonical_zero (add_negation_congruent _),
    fun w hw => canonicalize_fieldAdd canonical_zero hw, fun hle => ?_, canonicalize_fieldAdd_subK_P_of_lt⟩, ?_⟩
  · exact canonicalize_fieldAdd canonical_zero (by rw [add_subK_P_of_le hle]; rfl)
  · exact canonicalize_fieldAdd_subK_P_of_lt (by decide)

end

section
/-! SUPPORT. The assembled lines (30_encoding R77): when a line is well formed, what it issues, and what its
destinations hold after the answer has been copied out. -/

namespace Sys2Proof.Machine

theorem Line.wf_txn {m : Mnemonic} {dests : List Dest} {srcs : List Source}
    (harity : m.arity = (dests.length, srcs.length)) (hdests : destsWf dests = true)
    (hsrcs : ∀ src ∈ srcs, src.wf = true) : Line.wf (.txn m dests srcs) = true := by
  simpa [Line.wf, harity, hdests] using hsrcs

@[simp] theorem destsWf_singleton (d : Dest) : destsWf [d] = true := by
  cases d <;> rfl

/-- A command's line has a destination for every output it copies and a source for every width (30_encoding R77). -/
theorem lineArity_eq_lengths (i : Instr) : lineArity i = ((outFields i).length, (sourceWidths i).length) := by
  cases i <;> rfl

theorem issueOf_copies (i : Instr) (ops : List Nat) (dests : List Dest) :
    (issueOf i ops dests).copies = dests.zip (outFields i) := by
  cases i <;> rfl

theorem operandValues_cons {m : VarMap} {w v : Nat} {ws vs : List Nat} {src : Source} {srcs : List Source}
    (h : src.operand m w = .ok v) (hs : operandValues m ws srcs = .ok vs) :
    operandValues m (w :: ws) (src :: srcs) = .ok (v :: vs) := by
  simp only [operandValues, h, hs]

/-- A well-formed line whose name stands for `i` and whose operands evaluate issues `i` on them. -/
theorem Line.act_txn {strategy : Strategy} {m : VarMap} {mn : Mnemonic} {i : Instr} {dests : List Dest}
    {srcs : List Source} {ops : List Nat} (hwf : Line.wf (.txn mn dests srcs) = true)
    (hi : mn.resolve strategy m srcs = .ok i) (hops : operandValues m (mn.sourceWidths i) srcs = .ok ops) :
    (Line.txn mn dests srcs).act strategy m = .ok (.issue (issueOf i ops dests)) := by
  simp only [Line.act, hwf, issueLine, hi, hops, Except.map, if_true]

theorem step_core_issue {s : State} {i : Instr} {dests : List Dest} {srcs : List Source} {ops : List Nat}
    {rest : List Line} (hp : s.program = .txn (.core i) dests srcs :: rest)
    (hdests : dests.length = (outFields i).length) (hsrcs : srcs.length = (sourceWidths i).length)
    (hdwf : destsWf dests = true) (hswf : ∀ src ∈ srcs, src.wf = true)
    (hops : operandValues s.vars (sourceWidths i) srcs = .ok ops) :
    step s = transact (issueOf i ops dests) { s with program := rest } := by
  have harity : lineArity i = (dests.length, srcs.length) := by rw [lineArity_eq_lengths, hdests, hsrcs]
  exact step_of_act_issue hp (Line.act_txn (Line.wf_txn harity hdwf hswf) rfl hops)

/-- The commands other than ADC, RED and CANON drive their two operands on `a` and `b`, and 0 on `cin`. -/
theorem issueOf_binary {i : Instr} (hi : i ∉ [Instr.adcF, .adcE, .red, .canon]) (X Z : Nat) (dests : List Dest) :
    issueOf i [X, Z] dests =
      ⟨encode i, BitVec.ofNat 128 X, BitVec.ofNat 128 Z, 0, dests.zip (outFields i)⟩ := by
  cases i
  case adcF | adcE | red | canon => simp at hi
  all_goals rfl

theorem issueOf_adc {i : Instr} (hi : i ∈ [Instr.adcF, Instr.adcE]) (X Z C : Nat) (dests : List Dest) :
    issueOf i [X, Z, C] dests = ⟨encode i, BitVec.ofNat 128 X, BitVec.ofNat 128 Z, BitVec.ofNat 1 C,
      dests.zip [.y 0 32, .cout]⟩ := by
  obtain rfl | rfl : i = .adcF ∨ i = .adcE := by simpa using hi
  all_goals rfl

/-- A line of two operands of one width issues them on `a` and `b`. -/
theorem step_binary_line {s : State} {i : Instr} {w : Nat} {dests : List Dest} {x z : Source} {X Z : Nat}
    {rest : List Line} (hp : s.program = .txn (.core i) dests [x, z] :: rest)
    (hi : i ∉ [Instr.adcF, .adcE, .red, .canon]) (hwidths : sourceWidths i = [w, w])
    (hdests : dests.length = (outFields i).length) (hdwf : destsWf dests = true) (hx : x.wf = true)
    (hz : z.wf = true) (hX : x.operand s.vars w = .ok X) (hZ : z.operand s.vars w = .ok Z) :
    step s = transact ⟨encode i, BitVec.ofNat 128 X, BitVec.ofNat 128 Z, 0, dests.zip (outFields i)⟩
      { s with program := rest } := by
  rw [← issueOf_binary hi]
  refine step_core_issue hp hdests (by rw [hwidths]; rfl) hdwf (by simp [hx, hz]) ?_
  rw [hwidths]
  exact operandValues_cons hX (operandValues_cons hZ rfl)

/-- An operand lies whole on its port. -/
theorem bus_ofNat_toNat {w n : Nat} (hw : w ≤ 128) (hn : n < 2 ^ w) : (BitVec.ofNat 128 n).toNat = n := by
  rw [BitVec.toNat_ofNat, Nat.mod_eq_of_lt (hn.trans_le (Nat.pow_le_pow_right (by decide) hw))]

/-- A slice of a number on the port is that slice of the number. -/
theorem extractLsb'_bus_ofNat {lo w : Nat} (n : Nat) (h : lo + w ≤ 128) :
    (BitVec.ofNat 128 n).extractLsb' lo w = BitVec.ofNat w (n / 2 ^ lo) := by
  apply BitVec.eq_of_getLsbD_eq
  intro j hj
  have hbus : lo + j < 128 := by omega
  simp only [BitVec.getLsbD_extractLsb', BitVec.getLsbD_ofNat, Nat.testBit_div_two_pow, hj, hbus, Nat.add_comm j lo,
    decide_true, Bool.true_and]

theorem lowSlice_bus_ofNat_mod {w : Nat} (n : Nat) (hw : w ≤ 128) :
    (BitVec.ofNat 128 (n % 2 ^ w)).extractLsb' 0 w = BitVec.ofNat w n := by
  rw [extractLsb'_bus_ofNat _ (by omega), Nat.pow_zero, Nat.div_one]
  exact BitVec.eq_of_toNat_eq (by simp)

section Copies
variable (s : State) {w : Nat} {d e : Dest} (hde : destsWf [d, e] = true)
include hde

/-- The destinations of an adder's line receive the sum and its carry. -/
theorem copyOut_sum_carry (T : Nat) (hw : w ≤ 128) :
    let m := (({ s with y := BitVec.ofNat 128 (T % 2 ^ w), cout := BitVec.ofNat 1 (T / 2 ^ w) } : State).copyOut
      [(d, .y 0 w), (e, .cout)]).vars
    (∀ n, d = some n → lookupVar m n = some ⟨w, BitVec.ofNat w T⟩) ∧
    (∀ n, e = some n → lookupVar m n = some ⟨1, BitVec.ofNat 1 (T / 2 ^ w)⟩) ∧
    (∀ n, d ≠ some n → e ≠ some n → lookupVar m n = lookupVar s.vars n) := by
  rw [← lowSlice_bus_ofNat_mod T hw]
  exact copyOut_two _ d e (.y 0 w) .cout hde

/-- The destinations of a multiplier's line receive the two halves of the product. -/
theorem copyOut_halves (T : Nat) (cout : Bit) (hw : w + w ≤ 128) :
    let m := (({ s with y := BitVec.ofNat 128 T, cout := cout } : State).copyOut [(d, .y 0 w), (e, .y w w)]).vars
    (∀ n, d = some n → lookupVar m n = some ⟨w, BitVec.ofNat w T⟩) ∧
    (∀ n, e = some n → lookupVar m n = some ⟨w, BitVec.ofNat w (T / 2 ^ w)⟩) ∧
    (∀ n, d ≠ some n → e ≠ some n → lookupVar m n = lookupVar s.vars n) := by
  have hlow : (BitVec.ofNat 128 T).extractLsb' 0 w = BitVec.ofNat w T := by
    rw [extractLsb'_bus_ofNat T (by omega), Nat.pow_zero, Nat.div_one]
  rw [← hlow, ← extractLsb'_bus_ofNat T hw]
  exact copyOut_two _ d e (.y 0 w) (.y w w) hde

end Copies

section Answers
variable {v : State} {X Z : Nat} (ha : v.a.toNat = X) (hb : v.b.toNat = Z)
include ha hb

theorem exec_adc_answer {i : Instr} (hi : i ∈ [Instr.adcF, Instr.adcE]) {C : Nat} (hc : v.cin.toNat = C)
    (hX : X < 2 ^ 32) (hZ : Z < 2 ^ 32) :
    exec i v = v.answer (BitVec.ofNat 128 ((X + Z + C) % 2 ^ 32)) (BitVec.ofNat 1 ((X + Z + C) / 2 ^ 32)) := by
  rw [exec_adc hi, adcFlagCommandAnswersExactSum.2.1, ha, hb, hc, Nat.mod_eq_of_lt hX, Nat.mod_eq_of_lt hZ]
  rfl

/-- The four wide adds, with the width of their operands (41_wide_adder R102 to R105). -/
theorem exec_wideAdd_answer {i : Instr} {w : Nat}
    (hi : (i, w) ∈ [(Instr.addw2F, 64), (Instr.addw2E, 64), (Instr.addw4F, 128), (Instr.addw4E, 128)])
    (hX : X < 2 ^ w) (hZ : Z < 2 ^ w) :
    exec i v = v.answer (BitVec.ofNat 128 ((X + Z) % 2 ^ w)) (BitVec.ofNat 1 ((X + Z) / 2 ^ w)) := by
  simp only [List.mem_cons, Prod.mk.injEq, List.not_mem_nil, or_false] at hi
  obtain ⟨rfl, rfl⟩ | ⟨rfl, rfl⟩ | ⟨rfl, rfl⟩ | ⟨rfl, rfl⟩ := hi
  · rw [exec_addw2F_sum, ha, hb, Nat.mod_eq_of_lt hX, Nat.mod_eq_of_lt hZ, State.answer_eq]
  · rw [exec_addw2E, exec_addw2F_sum, ha, hb, Nat.mod_eq_of_lt hX, Nat.mod_eq_of_lt hZ, State.answer_eq]
  · rw [exec_addw4F_sum, ha, hb, State.answer_eq]
  · rw [exec_addw4E, exec_addw4F_sum, ha, hb, State.answer_eq]

/-- The two multiplications, with the width of their operands (42_widening_multiplier R119, R120). -/
theorem exec_multiply_answer {i : Instr} {w : Nat} (hi : (i, w) ∈ [(Instr.wmul, 32), (Instr.wmuld, 64)])
    (hX : X < 2 ^ w) (hZ : Z < 2 ^ w) : exec i v = v.answer (BitVec.ofNat 128 (X * Z)) 0#1 := by
  simp only [List.mem_cons, Prod.mk.injEq, List.not_mem_nil, or_false] at hi
  obtain ⟨rfl, rfl⟩ | ⟨rfl, rfl⟩ := hi
  · rw [wmulCommandAnswersTheProduct.2, ha, hb, Nat.mod_eq_of_lt hX, Nat.mod_eq_of_lt hZ, State.answer_eq]
  · rw [wmuldCommandAnswersTheProductAndLifts.2.1, ha, hb, Nat.mod_eq_of_lt hX, Nat.mod_eq_of_lt hZ,
      State.answer_eq]

end Answers

/-- The rows of 30_encoding R77 for the wide adds. -/
theorem wideAdd_row : ∀ p ∈ [(Instr.addw2F, 64), (Instr.addw2E, 64), (Instr.addw4F, 128), (Instr.addw4E, 128)],
    p.1 ∉ [Instr.adcF, .adcE, .red, .canon] ∧ sourceWidths p.1 = [p.2, p.2] ∧
    outFields p.1 = [.y 0 p.2, .cout] ∧ p.2 ≤ 128 := by
  decide

/-- The rows of 30_encoding R77 for the multiplications. -/
theorem multiply_row : ∀ p ∈ [(Instr.wmul, 32), (Instr.wmuld, 64)],
    p.1 ∉ [Instr.adcF, .adcE, .red, .canon] ∧ sourceWidths p.1 = [p.2, p.2] ∧
    outFields p.1 = [.y 0 p.2, .y p.2 p.2] ∧ p.2 + p.2 ≤ 128 := by
  decide

/-- The rows of 30_encoding R77 for ADC. -/
theorem adc_row : ∀ i ∈ [Instr.adcF, Instr.adcE], sourceWidths i = [32, 32, 1] ∧ outFields i = [.y 0 32, .cout] := by
  decide

end Sys2Proof.Machine
end

section
/-! The statements about the lines of the adders and the multiplier. -/

open Sys2Proof Sys2Proof.Machine

/-- Settles O47: the line issues its three operands, ADC answers their sum, and the copies read it off. -/
theorem adcLineAssignsSumAndCarry : Obligations.AdcLineAssignsSumAndCarry := by
  intro s i d e x z ci X Z C rest hi hp hde hx hz hci hX hZ hC
  obtain ⟨hwidths, houts⟩ := adc_row i hi
  have hops : operandValues s.vars (sourceWidths i) [x, z, ci] = .ok [X, Z, C] := by
    rw [hwidths]
    exact operandValues_cons hX (operandValues_cons hZ (operandValues_cons hC rfl))
  have ha := bus_ofNat_toNat (by decide) (Source.operand_lt hX)
  have hb := bus_ofNat_toNat (by decide) (Source.operand_lt hZ)
  have hcin : (BitVec.ofNat 1 C).toNat = C := by
    rw [BitVec.toNat_ofNat, Nat.mod_eq_of_lt (Source.operand_lt hC)]
  rw [step_core_issue hp (by rw [houts]; rfl) (by rw [hwidths]; rfl) hde (by simp [hx, hz, hci]) hops, issueOf_adc hi]
  exact ⟨_, transact_answers (decode_encode_code i)
    (exec_adc_answer ha hb hi hcin (Source.operand_lt hX) (Source.operand_lt hZ)), rfl, rfl, ha, hb, hcin,
    copyOut_sum_carry _ hde _ (by decide)⟩

/-- Settles O48: the line issues its two operands, the wide add answers their sum, and the copies read it off. -/
theorem wideAddLineAssignsSumAndCarry : Obligations.WideAddLineAssignsSumAndCarry := by
  intro s i w d e x z X Z rest hi hp hde hx hz hX hZ
  obtain ⟨hbinary, hwidths, houts, hw⟩ := wideAdd_row (i, w) hi
  have ha := bus_ofNat_toNat hw (Source.operand_lt hX)
  have hb := bus_ofNat_toNat hw (Source.operand_lt hZ)
  rw [step_binary_line hp hbinary hwidths (by rw [houts]; rfl) hde hx hz hX hZ, houts]
  exact ⟨_, transact_answers (decode_encode_code i)
    (exec_wideAdd_answer ha hb hi (Source.operand_lt hX) (Source.operand_lt hZ)), rfl, rfl, ha, hb, rfl,
    copyOut_sum_carry _ hde _ hw⟩

/-- Settles O49: the line issues its two operands, the multiplier answers their product, and the copies read its
halves off. -/
theorem multiplyLineAssignsBothHalves : Obligations.MultiplyLineAssignsBothHalves := by
  intro s i w d e x z X Z rest hi hp hde hx hz hX hZ
  obtain ⟨hbinary, hwidths, houts, hw⟩ := multiply_row (i, w) hi
  have ha := bus_ofNat_toNat (by omega) (Source.operand_lt hX)
  have hb := bus_ofNat_toNat (by omega) (Source.operand_lt hZ)
  rw [step_binary_line hp hbinary hwidths (by rw [houts]; rfl) hde hx hz hX hZ, houts]
  exact ⟨_, transact_answers (decode_encode_code i)
    (exec_multiply_answer ha hb hi (Source.operand_lt hX) (Source.operand_lt hZ)), rfl, rfl, ha, hb, rfl,
    copyOut_halves _ hde _ _ hw⟩

end

section
/-! SUPPORT. The lines of the field commands (30_encoding R77): one destination, which receives a 64-bit pattern. -/

namespace Sys2Proof.Machine

/-- A command that goes on has answered with the outputs it leaves. -/
theorem exec_next_answer {i : Instr} {s t : State} (h : exec i s = .next t) : exec i s = s.answer t.y t.cout := by
  obtain ⟨y, cout, he⟩ := exec_answers i s
  rw [h] at he
  cases he
  exact h

/-- A transaction of which one 64-bit output is copied, where the answer fits 64 bits. -/
theorem transact_one_dword {s t : State} {u : Issue} {i : Instr} {d : Dest} (hd : decode u.cmd = .ok i)
    (hcopies : u.copies = [(d, .y 0 64)]) (he : exec i (s.present u) = .next t) :
    ∃ t', transact u s = .next t' ∧ t'.program = s.program ∧ t'.cmd = u.cmd ∧ t'.a = u.a ∧ t'.b = u.b ∧
      t'.cin = u.cin ∧ (∀ n, d = some n → lookupVar t'.vars n = some ⟨64, BitVec.ofNat 64 t.y.toNat⟩) ∧
      (∀ n, d ≠ some n → lookupVar t'.vars n = lookupVar s.vars n) := by
  have hlow : t.y.extractLsb' 0 64 = BitVec.ofNat 64 t.y.toNat :=
    BitVec.eq_of_toNat_eq (by rw [BitVec.extractLsb'_toNat, Nat.shiftRight_zero, BitVec.toNat_ofNat])
  refine ⟨_, transact_answers hd (exec_next_answer he), rfl, rfl, rfl, rfl, rfl, ?_⟩
  rw [hcopies, ← hlow]
  exact copyOut_one _ d (.y 0 64)

/-- A pair of 64-bit numbers lies whole on a port (20_memory R53). -/
theorem bus_pair_toNat {X Z : Nat} (hX : X < 2 ^ 64) (hZ : Z < 2 ^ 64) :
    (BitVec.ofNat 128 (X + Z * 2 ^ 64)).toNat = X + Z * 2 ^ 64 :=
  bus_ofNat_toNat le_rfl (by omega)

/-- What RED, FADD and FMUL issue for two operands is answered with a representative of the pair, the sum or the
product (43_goldilocks R134, R139, R141). -/
theorem exec_field_line {i : Instr} (hi : i ∈ [Instr.red, .fadd, .fmul]) (s : State) (dests : List Dest) {X Z : Nat}
    (hX : X < 2 ^ 64) (hZ : Z < 2 ^ 64) :
    ∃ t, exec i (s.present (issueOf i [X, Z] dests)) = .next t ∧ t.y.toNat < 2 ^ 64 ∧
      (i = .red → CongruentModP t.y.toNat (X + Z * 2 ^ 64)) ∧ (i = .fadd → CongruentModP t.y.toNat (X + Z)) ∧
      (i = .fmul → CongruentModP t.y.toNat (X * Z)) := by
  have hlow {n : Nat} (hn : n < 2 ^ 64) : (BitVec.ofNat 128 n).toNat % 2 ^ 64 = n := by
    rw [bus_ofNat_toNat (by decide) hn, Nat.mod_eq_of_lt hn]
  simp only [List.mem_cons, List.not_mem_nil, or_false] at hi
  obtain rfl | rfl | rfl := hi
  · obtain ⟨t, he, hcong, hlt⟩ := exec_red_congruent (s.present (issueOf .red [X, Z] dests))
    exact ⟨t, he, hlt, fun _ => by rw [← bus_pair_toNat hX hZ]; exact hcong, nofun, nofun⟩
  · obtain ⟨t, he, hcong, hlt⟩ := exec_fadd_congruent (s.present (issueOf .fadd [X, Z] dests))
    exact ⟨t, he, hlt, nofun, fun _ => by rw [← hlow hX, ← hlow hZ]; exact hcong, nofun⟩
  · obtain ⟨t, he, hcong, hlt⟩ := exec_fmul_congruent (s.present (issueOf .fmul [X, Z] dests))
    exact ⟨t, he, hlt, nofun, nofun, fun _ => by rw [← hlow hX, ← hlow hZ]; exact hcong⟩

/-- The ports that RED, FADD and FMUL drive for two operands (30_encoding R77). -/
theorem issueOf_field_ports {i : Instr} (hi : i ∈ [Instr.red, .fadd, .fmul]) (dests : List Dest) {X Z : Nat}
    (hX : X < 2 ^ 64) (hZ : Z < 2 ^ 64) :
    (issueOf i [X, Z] dests).cin = 0#1 ∧
      (i = .red → (issueOf i [X, Z] dests).a.toNat = X + Z * 2 ^ 64 ∧ (issueOf i [X, Z] dests).b = 0) ∧
      (i ≠ .red → (issueOf i [X, Z] dests).a.toNat = X ∧ (issueOf i [X, Z] dests).b.toNat = Z) := by
  have hw : 64 ≤ 128 := by decide
  simp only [List.mem_cons, List.not_mem_nil, or_false] at hi
  obtain rfl | hi := hi
  · exact ⟨rfl, fun _ => ⟨bus_pair_toNat hX hZ, rfl⟩, fun h => absurd rfl h⟩
  · have hbinary : i ∉ [Instr.adcF, .adcE, .red, .canon] := by
      obtain rfl | rfl := hi <;> decide
    rw [issueOf_binary hbinary]
    refine ⟨rfl, ?_, fun _ => ⟨bus_ofNat_toNat hw hX, bus_ofNat_toNat hw hZ⟩⟩
    rintro rfl
    exact absurd hi (by decide)

/-- The rows of 30_encoding R77 for RED, FADD and FMUL. -/
theorem field_row : ∀ i ∈ [Instr.red, .fadd, .fmul], sourceWidths i = [64, 64] ∧ outFields i = [.y 0 64] := by
  decide

/-- CANON of an operand on port `a` answers its remainder by `P`. -/
theorem exec_canon_remainder {v : State} {X : Nat} (ha : v.a.toNat = X) (hX : X < 2 ^ 64) :
    ∃ t, exec .canon v = .next t ∧ t.y.toNat = X % Config.P.toNat := by
  obtain ⟨t, he, hcong, hlt⟩ := exec_canon_congruent v
  rw [CongruentModP, Nat.mod_eq_of_lt hlt, ha, Nat.mod_eq_of_lt hX] at hcong
  exact ⟨t, he, hcong⟩

/-- `reduce(product)` drives the product on port `a`, and 0 on the rest (30_encoding R78). -/
theorem issueOf_red_product (X : Nat) (d : Dest) :
    issueOf .red [X] [d] = ⟨encode .red, BitVec.ofNat 128 X, 0, 0, [(d, .y 0 64)]⟩ := by
  simp [issueOf, operandAt, outFields]

end Sys2Proof.Machine
end

section
/-! The statements about the lines of the field commands. -/

open Sys2Proof Sys2Proof.Machine

/-- Settles O50: the line issues its two operands, and the 64-bit answer is congruent to the command's true result. -/
theorem fieldLineAssignsARepresentative : Obligations.FieldLineAssignsARepresentative := by
  intro s i d x z X Z rest hi hp hx hz hX hZ
  obtain ⟨hwidths, houts⟩ := field_row i hi
  have hops : operandValues s.vars (sourceWidths i) [x, z] = .ok [X, Z] := by
    rw [hwidths]
    exact operandValues_cons hX (operandValues_cons hZ rfl)
  have hX64 := Source.operand_lt hX
  have hZ64 := Source.operand_lt hZ
  obtain ⟨t, he, hlt, hred, hfadd, hfmul⟩ := exec_field_line hi { s with program := rest } [d] hX64 hZ64
  obtain ⟨hcin, hpair, hports⟩ := issueOf_field_ports hi [d] hX64 hZ64
  obtain ⟨t', hstep, hprog, hcmd, ha, hb, hc, hassigned, hother⟩ :=
    transact_one_dword (d := d) (by simp) (by rw [issueOf_copies, houts]; rfl) he
  rw [step_core_issue hp (by rw [houts]; rfl) (by rw [hwidths]; rfl) (destsWf_singleton d) (by simp [hx, hz]) hops]
  rw [← ha, ← hb] at hpair hports
  exact ⟨t', t.y.toNat, hstep, hprog, hcmd.trans (issueOf_cmd ..), hc.trans hcin, hpair, hports, hlt, hred, hfadd,
    hfmul, hassigned, hother⟩

/-- Settles O51: the line issues its operand, and CANON answers the remainder. -/
theorem canonLineAssignsTheResidue : Obligations.CanonLineAssignsTheResidue := by
  intro s d x X rest hp hx hX
  have ha := bus_ofNat_toNat (by decide) (Source.operand_lt hX)
  obtain ⟨t, he, hy⟩ := exec_canon_remainder
    (v := ({ s with program := rest } : State).present (issueOf .canon [X] [d])) ha (Source.operand_lt hX)
  obtain ⟨t', hstep, hprog, hcmd, ha', hb, hc, hassigned, hother⟩ :=
    transact_one_dword (d := d) (decode_encode_code .canon) rfl he
  rw [step_core_issue hp rfl rfl (destsWf_singleton d) (by simp [hx]) (operandValues_cons hX rfl)]
  rw [hy] at hassigned
  exact ⟨t', hstep, hprog, hcmd, by rw [ha']; exact ha, hb, hc, hassigned, hother⟩

/-- Settles O56: the whole product goes to port `a`, where RED finds the pair it reduces. -/
theorem reduceOfAProductTakesItWhole : Obligations.ReduceOfAProductTakesItWhole := by
  intro s d x X rest hp hx hX
  have ha := bus_ofNat_toNat le_rfl (Source.operand_lt hX)
  have hact := Line.act_txn (strategy := Config.addWideStrategy) (m := s.vars) (mn := .reduceProduct) (dests := [d])
    (srcs := [x]) (Line.wf_txn rfl (destsWf_singleton d) (by simp [hx])) rfl (operandValues_cons hX rfl)
  rw [step_of_act_issue hp hact, issueOf_red_product]
  obtain ⟨t, he, hcong, hlt⟩ := exec_red_congruent (({ s with program := rest } : State).present
    ⟨encode .red, BitVec.ofNat 128 X, 0, 0, [(d, .y 0 64)]⟩)
  obtain ⟨t', hstep, hprog, hcmd, ha', hb, hc, hassigned, hother⟩ :=
    transact_one_dword (d := d) (decode_encode_code .red) rfl he
  rw [State.present_a, ha] at hcong
  exact ⟨t', t.y.toNat, hstep, hprog, hcmd, by rw [ha', ha], hb, hc, hlt, hcong, hassigned, hother⟩

end

section
/-! SUPPORT. The code table read backwards (30_encoding R74), and a presented line as its command. -/

namespace Sys2Proof.Machine

/-- Every row of the table compares all four bits with the code of its command. -/
theorem opcodeRows_pattern : ∀ r ∈ opcodeRows, r.mask = 0xF#4 ∧ encode r.instr = r.pattern := by
  decide

theorem cmd_and_mask (c : Cmd) : c &&& 0xF#4 = c := by
  revert c
  decide

/-- A code that decodes is the code of what it decodes to (30_encoding R74). -/
theorem encode_of_decode {c : Cmd} {i : Instr} (h : decode c = .ok i) : encode i = c := by
  rw [decode] at h
  split at h
  next r hr =>
    cases h
    obtain ⟨hmask, hpattern⟩ := opcodeRows_pattern r (List.mem_of_find?_eq_some hr)
    have hsel : c &&& r.mask = r.pattern := by simpa [OpcodeRow.selects] using List.find?_some hr
    rw [hpattern, ← hsel, hmask, cmd_and_mask]
  next => cases h

/-- A table word that decodes does so by the code in its low bits (30_encoding R71). -/
theorem decode_of_decodeTableWord {nbits w : Nat} {i : Instr} (h : decodeTableWord nbits w = some i) :
    decode (cmdOfWord nbits w) = .ok i := by
  rw [decodeTableWord] at h
  cases hd : decode (cmdOfWord nbits w) with
  | error e => simp [hd, Except.toOption] at h
  | ok j =>
    simp only [hd, Except.toOption, Option.some.injEq] at h
    rw [h]

/-- The presented command runs on the presented inputs (00_scope R15). -/
theorem step_present_exec {s : State} {c : Cmd} {a b : Bus} {cin : Bit} {rest : List Line} {i : Instr}
    (hp : s.program = .present c a b cin :: rest) (hd : decode c = .ok i) :
    step s = exec i { s with cmd := c, a := a, b := b, cin := cin, program := rest } := by
  rw [step_present a b cin hp, transact_ok _ hd, finish_nil]
  rfl

end Sys2Proof.Machine
end

section
/-! The statements about reset, the code table and the presented command. -/

open Sys2Proof Sys2Proof.Machine

/-- Settles O1: the fields of `State.reset`. -/
theorem resetPortsAreZeroAndHostIsEmpty : Obligations.ResetPortsAreZeroAndHostIsEmpty :=
  ⟨rfl, rfl, rfl, rfl, rfl, rfl, rfl, rfl⟩

/-- Settles O2: the written codes are the encodings of the commands. -/
theorem commandCodesDecodeAsTabled : Obligations.CommandCodesDecodeAsTabled :=
  ⟨decode_encode_code .adcF, decode_encode_code .adcE, decode_encode_code .addw2F, decode_encode_code .addw2E,
    decode_encode_code .addw4F, decode_encode_code .addw4E, decode_encode_code .wmul, decode_encode_code .wmuld,
    decode_encode_code .red, decode_encode_code .canon, decode_encode_code .fadd, decode_encode_code .fmul⟩

/-- Settles O3: both directions read off the rows of the table. -/
theorem decodeAndEncodeAgree : Obligations.DecodeAndEncodeAgree :=
  ⟨fun i _ => decode_encode_code i, fun _ _ => encode_of_decode⟩

/-- Settles O5: a presented line copies nothing out, so its step is the command alone. -/
theorem stepRunsThePresentedCommand : Obligations.StepRunsThePresentedCommand :=
  fun _ _ _ _ _ _ _ => step_present_exec

/-- Settles O6: the step of a line that issues is the transaction. -/
theorem stepRunsTheIssuedTransaction : Obligations.StepRunsTheIssuedTransaction := by
  intro s u line rest t i hp hact hd he
  have hexec : exec i (({ s with program := rest } : State).present t) = .next u := he
  rw [step_of_act_issue hp hact, transact_ok _ hd, hexec, finish]

/-- Settles O7: the placed line presents the word's code on the operands that stand on the ports. -/
theorem placedWordRunsNext : Obligations.PlacedWordRunsNext :=
  fun _ _ _ _ h => step_present_exec rfl (decode_of_decodeTableWord h)

/-- Settles O8: with no line left the step has nothing to present. -/
theorem emptyProgramIsRefused : Obligations.EmptyProgramIsRefused := fun _ => step_nil

/-- Settles O45: with 0 on every port ADC.F answers 0 and no carry, and no variable is assigned. -/
theorem resetMeetsBothInvariants : Obligations.ResetMeetsBothInvariants :=
  ⟨⟨.adcF, decode_encode_code .adcF, rfl⟩, rfl⟩

end

section
/-! SUPPORT. The directives (30_encoding R77): what each makes the host do. -/

namespace Sys2Proof.Machine

section Directives
variable {strategy : Strategy} {m : VarMap} {n : VarName} {src : Source} {v : HostValue}

theorem Line.act_letVar (hwf : src.wf = true) (hv : src.value m = .ok v) :
    (Line.letVar n src).act strategy m = .ok (.direct (assignVar m n v)) := by
  simp [Line.act, Line.wf, hwf, hv, Except.map]

section Difference
variable {digits value : Nat} (hlit : literalWf digits value = true) (hwf : src.wf = true)
  (hv : src.value m = .ok v)
include hlit hwf hv

theorem Line.act_letDiff_of_le (hle : v.bits.toNat ≤ value) :
    (Line.letDiff n digits value src).act strategy m =
      .ok (.direct (assignVar m n ⟨4 * digits, BitVec.ofNat (4 * digits) (value - v.bits.toNat)⟩)) := by
  simp [Line.act, Line.wf, hlit, hwf, differenceOf, hv, Except.map, hle, assignDifference]

theorem Line.act_letDiff_of_lt (hlt : value < v.bits.toNat) :
    (Line.letDiff n digits value src).act strategy m = .ok (.assignFree n (4 * digits)) := by
  simp [Line.act, Line.wf, hlit, hwf, differenceOf, hv, Except.map, Nat.not_le.2 hlt, assignDifference]

end Difference

section Expect
variable {digits value : Nat} (hlit : literalWf digits value = true) (hv : lookupVar m n = some v)
include hlit hv

theorem Line.act_expect_of_eq (he : v.bits.toNat = value) :
    (Line.expect n digits value).act strategy m = .ok (.direct m) := by
  simp [Line.act, Line.wf, hlit, readVar, hv, he]

theorem Line.act_expect_of_ne (hne : v.bits.toNat ≠ value) :
    (Line.expect n digits value).act strategy m = .error (.expectationFailed n) := by
  simp [Line.act, Line.wf, hlit, readVar, hv, hne]

end Expect

end Directives

end Sys2Proof.Machine
end

section
/-! SUPPORT. What the names of 30_encoding R78 stand for. -/

namespace Sys2Proof.Machine

section Size
variable {widths : List Nat} {wide narrow : Nat × Instr}

theorem bySize_wide (h : wide.1 ∈ widths) : bySize widths wide narrow = .ok wide.2 := by
  rw [bySize, if_pos h]

theorem bySize_narrow (hwide : wide.1 ∉ widths) (h : narrow.1 ∈ widths) :
    bySize widths wide narrow = .ok narrow.2 := by
  rw [bySize, if_neg hwide, if_pos h]

theorem bySize_ok {i : Instr} (h : bySize widths wide narrow = .ok i) : i = wide.2 ∨ i = narrow.2 := by
  rw [bySize] at h
  split at h
  · cases h
    exact .inl rfl
  · split at h
    · cases h
      exact .inr rfl
    · cases h

end Size

/-- A name's line has the destinations and sources of its command's, but for `reduce(product)` (30_encoding R78). -/
theorem resolve_arity {strategy : Strategy} {m : VarMap} {srcs : List Source} {mn : Mnemonic} {i : Instr}
    (hmn : mn ≠ .reduceProduct) (h : mn.resolve strategy m srcs = .ok i) : mn.arity = lineArity i := by
  cases mn
  case reduceProduct => exact absurd rfl hmn
  case adc =>
    cases h
    cases strategy <;> rfl
  case addw | add | addWide =>
    rw [Mnemonic.resolve] at h
    split at h
    · cases h
    · obtain rfl | rfl := bySize_ok h
      all_goals cases strategy <;> rfl
  case widenMul =>
    rw [Mnemonic.resolve] at h
    split at h
    · cases h
    · obtain rfl | rfl := bySize_ok h
      all_goals rfl
  all_goals
    cases h
    rfl

theorem sourceWidths_of_ne_reduceProduct {mn : Mnemonic} (hmn : mn ≠ .reduceProduct) (i : Instr) :
    mn.sourceWidths i = sourceWidths i := by
  cases mn
  case reduceProduct => exact absurd rfl hmn
  all_goals rfl

/-- A line under a name acts as the line under the command the name stands for. -/
theorem Line.act_resolved {strategy : Strategy} {m : VarMap} {mn : Mnemonic} {i : Instr} (dests : List Dest)
    {srcs : List Source} (hmn : mn ≠ .reduceProduct) (h : mn.resolve strategy m srcs = .ok i) :
    (Line.txn mn dests srcs).act strategy m = (Line.txn (.core i) dests srcs).act strategy m := by
  have hwf : Line.wf (.txn mn dests srcs) = Line.wf (.txn (.core i) dests srcs) := by
    rw [Line.wf, Line.wf, resolve_arity hmn h, Mnemonic.arity]
  have hissue : issueLine strategy m mn dests srcs = issueLine strategy m (.core i) dests srcs := by
    have hcore : (Mnemonic.core i).resolve strategy m srcs = .ok i := rfl
    have hwidths : mn.sourceWidths i = Mnemonic.sourceWidths i (.core i) := sourceWidths_of_ne_reduceProduct hmn i
    simp only [issueLine, h, hcore, hwidths]
  simp only [Line.act, hwf, hissue]

/-- Two operands of which those that size a line have width `n` (30_encoding R78, log 14). -/
def SizedBy (n : Nat) (x z : Source) (v w : HostValue) : Prop :=
  (v.width = n ∧ w.width = n) ∨ (v.width = n ∧ x.isLiteral = false ∧ z.isLiteral = true) ∨
    (w.width = n ∧ x.isLiteral = true ∧ z.isLiteral = false)

/-- The sources that size such a line evaluate, all of them at width `n`. -/
theorem evalAll_sizingSources {m : VarMap} {x z : Source} {v w : HostValue} {n : Nat} (hx : x.value m = .ok v)
    (hz : z.value m = .ok w) (h : SizedBy n x z v w) :
    ∃ vs, evalAll (Source.value m) (sizingSources [x, z]) = .ok vs ∧
      n ∈ vs.map HostValue.width ∧ ∀ k ∈ vs.map HostValue.width, k = n := by
  obtain ⟨hv, hw⟩ | ⟨hv, hlx, hlz⟩ | ⟨hw, hlx, hlz⟩ := h
  · cases hlx : x.isLiteral <;> cases hlz : z.isLiteral <;>
      simp [sizingSources, evalAll, hlx, hlz, hx, hz, hv, hw]
  · simp [sizingSources, evalAll, hlx, hlz, hx, hv]
  · simp [sizingSources, evalAll, hlx, hlz, hz, hw]

section Resolve
variable {strategy : Strategy} {m : VarMap} {srcs : List Source} {vs : List HostValue}
  (hvs : evalAll (Source.value m) (sizingSources srcs) = .ok vs)
include hvs

theorem resolve_addw {mn : Mnemonic} (hmn : mn ∈ [Mnemonic.addw, .add, .addWide]) :
    mn.resolve strategy m srcs =
      bySize (vs.map HostValue.width) (128, addw4By strategy) (64, addw2By strategy) := by
  simp only [List.mem_cons, List.not_mem_nil, or_false] at hmn
  obtain rfl | rfl | rfl := hmn
  all_goals simp only [Mnemonic.resolve, hvs]

theorem resolve_widenMul : Mnemonic.resolve strategy m srcs .widenMul =
    bySize (vs.map HostValue.width) (64, .wmuld) (32, .wmul) := by
  simp only [Mnemonic.resolve, hvs]

end Resolve

theorem adcBy_eq_ite (strategy : Strategy) : adcBy strategy = if strategy = .flag then .adcF else .adcE := by
  cases strategy <;> rfl

theorem addw2By_eq_ite (strategy : Strategy) : addw2By strategy = if strategy = .flag then .addw2F else .addw2E := by
  cases strategy <;> rfl

theorem addw4By_eq_ite (strategy : Strategy) : addw4By strategy = if strategy = .flag then .addw4F else .addw4E := by
  cases strategy <;> rfl

end Sys2Proof.Machine
end

section
/-! SUPPORT. A name never assigned (10_state R40): evaluation stops at it, wherever a line reads it. -/

namespace Sys2Proof.Machine

section Lists
variable {α β : Type} {f : α → Except Refusal β} {x : α} {xs : List α} {e : Refusal}

theorem evalAll_error_head (h : f x = .error e) : evalAll f (x :: xs) = .error e := by
  simp only [evalAll, h]

theorem evalAll_error_of_mem (hx : x ∈ xs) (h : f x = .error e) : ∃ r, evalAll f xs = .error r := by
  induction xs with
  | nil => cases hx
  | cons z zs ih =>
    cases hz : f z with
    | error r => exact ⟨r, evalAll_error_head hz⟩
    | ok v =>
      obtain rfl | hmem := List.mem_cons.1 hx
      · rw [h] at hz
        cases hz
      · obtain ⟨r, hr⟩ := ih hmem
        exact ⟨r, by simp only [evalAll, hz, hr]⟩

end Lists

theorem Source.reads_of_readsFirst {n : VarName} {src : Source} (h : src.readsFirst n = true) :
    src.reads n = true := by
  cases src with
  | atom a => exact h
  | limbs elems | concat elems =>
    cases elems with
    | nil => cases h
    | cons a as =>
      have ha : a.reads n = true := h
      simp [Source.reads, ha]

/-- A source that reads a name is no bare literal. -/
theorem Source.isLiteral_of_reads {n : VarName} {src : Source} (h : src.reads n = true) : src.isLiteral = false := by
  cases src with
  | atom a =>
    cases a with
    | literal digits value => cases h
    | var k | slice k hi lo => rfl
  | limbs elems | concat elems => rfl

/-- Anything but a bare literal stops as an operand where it stops as a value. -/
theorem Source.operand_error {m : VarMap} {w : Nat} {src : Source} {e : Refusal} (hlit : src.isLiteral = false)
    (h : src.value m = .error e) : src.operand m w = .error e := by
  cases src with
  | atom a =>
    cases a with
    | literal digits value => cases hlit
    | var k | slice k hi lo => simp only [Source.operand, h]
  | limbs elems | concat elems => simp only [Source.operand, h]

theorem operandValues_error_head {m : VarMap} {w : Nat} {ws : List Nat} {src : Source} {srcs : List Source}
    {e : Refusal} (h : src.operand m w = .error e) : operandValues m (w :: ws) (src :: srcs) = .error e := by
  simp only [operandValues, h]

theorem operandValues_error_of_mem {m : VarMap} {ws : List Nat} {src : Source} {srcs : List Source}
    (hl : ws.length = srcs.length) (hmem : src ∈ srcs) (h : ∀ w, ∃ r, src.operand m w = .error r) :
    ∃ r, operandValues m ws srcs = .error r := by
  induction srcs generalizing ws with
  | nil => cases hmem
  | cons src' srcs ih =>
    cases ws with
    | nil => cases hl
    | cons w ws =>
      cases hv : src'.operand m w with
      | error r => exact ⟨r, operandValues_error_head hv⟩
      | ok v =>
        obtain rfl | hmem := List.mem_cons.1 hmem
        · obtain ⟨r, hr⟩ := h w
          rw [hr] at hv
          cases hv
        · obtain ⟨r, hr⟩ := ih (Nat.succ.inj hl) hmem
          exact ⟨r, by simp only [operandValues, hv, hr]⟩

/-- Of a well-formed line every source is evaluated: there are as many widths as sources (30_encoding R77). -/
theorem sourceWidths_length {strategy : Strategy} {m : VarMap} {mn : Mnemonic} {dests : List Dest}
    {srcs : List Source} {i : Instr} (hwf : Line.wf (.txn mn dests srcs) = true)
    (h : mn.resolve strategy m srcs = .ok i) : (mn.sourceWidths i).length = srcs.length := by
  simp only [Line.wf, Bool.and_eq_true, decide_eq_true_eq] at hwf
  obtain ⟨⟨harity, -⟩, -⟩ := hwf
  by_cases hmn : mn = .reduceProduct
  · subst hmn
    exact (congrArg Prod.snd harity).symm
  · rw [resolve_arity hmn h, lineArity_eq_lengths] at harity
    rw [sourceWidths_of_ne_reduceProduct hmn]
    exact (congrArg Prod.snd harity).symm

section Unassigned
variable {m : VarMap} {n : VarName} (hn : lookupVar m n = none)
include hn

theorem readVar_unassigned : readVar m n = .error (.unassignedVariable n) := by
  simp only [readVar, hn]

theorem Atom.value_unassigned {a : Atom} (h : a.reads n = true) : a.value m = .error (.unassignedVariable n) := by
  cases a with
  | literal digits value => cases h
  | var k =>
    obtain rfl : k = n := of_decide_eq_true h
    exact readVar_unassigned hn
  | slice k hi lo =>
    obtain rfl : k = n := of_decide_eq_true h
    simp only [Atom.value, readVar_unassigned hn]

theorem Atom.limbValue_unassigned {a : Atom} (h : a.reads n = true) :
    a.limbValue m = .error (.unassignedVariable n) := by
  cases a with
  | literal digits value => cases h
  | var k | slice k hi lo => simp only [Atom.limbValue, Atom.value_unassigned hn h]

theorem Source.value_unassigned_first {src : Source} (h : src.readsFirst n = true) :
    src.value m = .error (.unassignedVariable n) := by
  cases src with
  | atom a => exact Atom.value_unassigned hn h
  | limbs elems =>
    cases elems with
    | nil => cases h
    | cons a as => rw [Source.value, evalAll_error_head (Atom.limbValue_unassigned hn h), Except.map]
  | concat parts =>
    cases parts with
    | nil => cases h
    | cons a as => rw [Source.value, evalAll_error_head (Atom.value_unassigned hn h), Except.map]

theorem Source.value_unassigned {src : Source} (h : src.reads n = true) : ∃ r, src.value m = .error r := by
  cases src with
  | atom a => exact ⟨_, Atom.value_unassigned hn h⟩
  | limbs elems =>
    obtain ⟨a, hmem, ha⟩ := List.any_eq_true.1 h
    obtain ⟨r, hr⟩ := evalAll_error_of_mem hmem (Atom.limbValue_unassigned hn ha)
    exact ⟨r, by rw [Source.value, hr, Except.map]⟩
  | concat parts =>
    obtain ⟨a, hmem, ha⟩ := List.any_eq_true.1 h
    obtain ⟨r, hr⟩ := evalAll_error_of_mem hmem (Atom.value_unassigned hn ha)
    exact ⟨r, by rw [Source.value, hr, Except.map]⟩

section Line
variable {strategy : Strategy}

/-- Where the first source begins with the name, a name whose size the operands pick stops at it, and any other
stands for a command. -/
theorem resolve_unassigned_first {src : Source} {srcs : List Source} (mn : Mnemonic)
    (h : src.readsFirst n = true) :
    mn.resolve strategy m (src :: srcs) = .error (.unassignedVariable n) ∨
      ∃ i, mn.resolve strategy m (src :: srcs) = .ok i := by
  have hlit := Source.isLiteral_of_reads (Source.reads_of_readsFirst h)
  have heval : evalAll (Source.value m) (sizingSources (src :: srcs)) = .error (.unassignedVariable n) := by
    simp only [sizingSources, List.all_cons, hlit, List.filter_cons]
    exact evalAll_error_head (Source.value_unassigned_first hn h)
  cases mn
  case addw | add | addWide | widenMul =>
    left
    simp only [Mnemonic.resolve, heval]
  all_goals exact .inr ⟨_, rfl⟩

theorem issueLine_unassigned_first {mn : Mnemonic} {dests : List Dest} {srcs : List Source}
    (hwf : Line.wf (.txn mn dests srcs) = true) (h : srcs.head?.any (Source.readsFirst n) = true) :
    issueLine strategy m mn dests srcs = .error (.unassignedVariable n) := by
  cases srcs with
  | nil => cases h
  | cons src srcs =>
    have hfirst : src.readsFirst n = true := h
    obtain hr | ⟨i, hr⟩ := resolve_unassigned_first (strategy := strategy) (srcs := srcs) hn mn hfirst
    · simp only [issueLine, hr]
    · have hlen := sourceWidths_length hwf hr
      obtain ⟨w, ws, hws⟩ := List.exists_cons_of_length_eq_add_one hlen
      have hop : src.operand m w = .error (.unassignedVariable n) :=
        Source.operand_error (Source.isLiteral_of_reads (Source.reads_of_readsFirst hfirst))
          (Source.value_unassigned_first hn hfirst)
      simp only [issueLine, hr, hws, operandValues_error_head hop]

theorem issueLine_unassigned {mn : Mnemonic} {dests : List Dest} {srcs : List Source}
    (hwf : Line.wf (.txn mn dests srcs) = true) (h : srcs.any (Source.reads n) = true) :
    ∃ r, issueLine strategy m mn dests srcs = .error r := by
  obtain ⟨src, hmem, hreads⟩ := List.any_eq_true.1 h
  cases hr : mn.resolve strategy m srcs with
  | error r => exact ⟨r, by simp only [issueLine, hr]⟩
  | ok i =>
    obtain ⟨e, he⟩ := Source.value_unassigned hn hreads
    obtain ⟨r, hops⟩ := operandValues_error_of_mem (sourceWidths_length hwf hr) hmem
      fun _ => ⟨e, Source.operand_error (Source.isLiteral_of_reads hreads) he⟩
    exact ⟨r, by simp only [issueLine, hr, hops]⟩

/-- A well-formed line that begins with the name stops by its name (10_state R40). -/
theorem Line.act_unassigned_first {line : Line} (hwf : line.wf = true) (h : line.readsFirst n = true) :
    line.act strategy m = .error (.unassignedVariable n) := by
  cases line with
  | present c a b cin => cases h
  | txn mn dests srcs => simp only [Line.act, hwf, if_true, issueLine_unassigned_first hn hwf h, Except.map]
  | letVar k src => simp only [Line.act, hwf, if_true, Source.value_unassigned_first hn h, Except.map]
  | letDiff k digits value src =>
    simp only [Line.act, hwf, if_true, differenceOf, Source.value_unassigned_first hn h, Except.map]
  | expect k digits value =>
    obtain rfl : k = n := of_decide_eq_true h
    simp only [Line.act, hwf, if_true, readVar_unassigned hn]

/-- A well-formed line that reads the name anywhere stops (10_state R40). -/
theorem Line.act_unassigned_of_wf {line : Line} (hwf : line.wf = true) (h : line.reads n = true) :
    ∃ r, line.act strategy m = .error r := by
  cases line with
  | present c a b cin => cases h
  | txn mn dests srcs =>
    obtain ⟨r, hr⟩ := issueLine_unassigned (strategy := strategy) hn hwf h
    exact ⟨r, by simp only [Line.act, hwf, if_true, hr, Except.map]⟩
  | letVar k src =>
    obtain ⟨r, hr⟩ := Source.value_unassigned hn h
    exact ⟨r, by simp only [Line.act, hwf, if_true, hr, Except.map]⟩
  | letDiff k digits value src =>
    obtain ⟨r, hr⟩ := Source.value_unassigned hn h
    exact ⟨r, by simp only [Line.act, hwf, if_true, differenceOf, hr, Except.map]⟩
  | expect k digits value => exact ⟨_, Line.act_unassigned_first hn hwf h⟩

/-- A line that reads the name stops, well formed or not. -/
theorem Line.act_unassigned {line : Line} (h : line.reads n = true) : ∃ r, line.act strategy m = .error r := by
  by_cases hwf : line.wf = true
  · exact Line.act_unassigned_of_wf hn hwf h
  · exact ⟨.illFormedLine, by simp [Line.act, hwf]⟩

end Line

end Unassigned

end Sys2Proof.Machine
end

section
/-! The statements about the directives, the names and the host's errors. -/

open Sys2Proof Sys2Proof.Machine

/-- Settles O52: what each directive makes the host do, done in a step of its own. -/
theorem directivesProduceNoTransaction : Obligations.DirectivesProduceNoTransaction := by
  intro s line rest hp
  refine ⟨?_, ?_, ?_⟩
  · rintro n src v rfl hwf hv
    exact step_of_act_direct hp (Line.act_letVar hwf hv)
  · rintro n k c src v rfl hlit hwf hv
    exact ⟨fun hle => step_of_act_direct hp (Line.act_letDiff_of_le hlit hwf hv hle),
      fun hlt => step_of_act_assignFree hp (Line.act_letDiff_of_lt hlit hwf hv hlt)⟩
  · rintro n k c v rfl hlit hv
    exact ⟨fun he => step_of_act_direct hp (Line.act_expect_of_eq hlit hv he),
      fun hne => step_of_act_error hp (Line.act_expect_of_ne hlit hv hne)⟩

/-- Settles O53: the line's act stops at the name, and so does the step. -/
theorem unassignedNameStopsTheHost : Obligations.UnassignedNameStopsTheHost := by
  intro s n line rest hn hp
  refine ⟨fun hwf hfirst => step_of_act_error hp (Line.act_unassigned_first hn hwf hfirst), fun hreads => ?_⟩
  obtain ⟨r, hr⟩ := Line.act_unassigned hn hreads
  exact ⟨r, step_of_act_error hp hr⟩

/-- Settles O54: the sources that size a line have all the one width, which picks the command. -/
theorem namesStandForTheirCommands : Obligations.NamesStandForTheirCommands := by
  intro strategy m x z srcs v w hx hz sized
  have hsize (n : Nat) (h : sized n) := evalAll_sizingSources (n := n) hx hz h
  rw [← adcBy_eq_ite, ← addw2By_eq_ite, ← addw4By_eq_ite]
  refine ⟨rfl, fun mn hmn => ⟨fun h => ?_, fun h => ?_⟩, fun h => ?_, fun h => ?_, rfl, rfl, rfl, rfl, rfl⟩
  · obtain ⟨vs, hvs, hmem, -⟩ := hsize 128 h
    rw [resolve_addw hvs hmn, bySize_wide hmem]
  · obtain ⟨vs, hvs, hmem, hall⟩ := hsize 64 h
    rw [resolve_addw hvs hmn, bySize_narrow (fun hwide => absurd (hall 128 hwide) (by decide)) hmem]
  · obtain ⟨vs, hvs, hmem, hall⟩ := hsize 32 h
    rw [resolve_widenMul hvs, bySize_narrow (fun hwide => absurd (hall 64 hwide) (by decide)) hmem]
  · obtain ⟨vs, hvs, hmem, -⟩ := hsize 64 h
    rw [resolve_widenMul hvs, bySize_wide hmem]

/-- Settles O55: both lines act the same. -/
theorem namedLineRunsAsItsCommand : Obligations.NamedLineRunsAsItsCommand := by
  intro strategy m i dests srcs s hm hi
  rw [runLine, runLine, Line.act_resolved dests hm hi]

end
